-- ==== Sys2Proof/Word.lean ====
section
/-! DEFINITION. The two data widths of the engine (00_scope R8, R9). Every operation of R10 is the
`BitVec` operation of the same width: `+`, `-`, `*` modulo 2^32, `^^^`, `&&&`, `|||`, and the logical
shifts `>>>`, `<<<`. Lengths, counts and indices are natural numbers (R12). -/

namespace Sys2Proof

/-- A word: "a 32-bit unsigned value" (R9). -/
abbrev Word := BitVec 32

/-- A byte: "an 8-bit unsigned value" (R9). -/
abbrev Byte := BitVec 8

end Sys2Proof
end

