-- ==== Sys2Proof/Syntax.lean ====
section
/-! DEFINITION. The nine commands of `spec/opcode_table.json` (30_encoding R73). A command has no register
fields, no immediates and no addressing modes: all operands are implicit (R71). The one-bit `L` flag of
the command word is part of which command it is (`PACK` and `PACKL`, `UNPACK` and `UNPACKL`, R73). -/

namespace Sys2Proof

/-- The commands, in the table's order (R73). -/
inductive Instr
  | encw
  | decw
  | pack
  | packl
  | unpack
  | unpackl
  | ldkey
  | enc
  | dec
deriving DecidableEq, Repr

end Sys2Proof
end

