-- ==== Sys2Proof/WellFormed.lean ====
section
/-! DEFINITION. The command format `CMD32` and when its fields name a command (30_encoding R70, R72, R74). -/

namespace Sys2Proof

/-- The fields of a command word (R70). -/
structure CmdFields where
  /-- bits 31:5, "reserved, must be 0". -/
  rsv : BitVec 27
  /-- bit 4, the length flag `L`. -/
  l   : BitVec 1
  /-- bits 3:0, the operation `OP`. -/
  op  : BitVec 4
deriving DecidableEq, Repr

/-- The reserved bits are 0 (R70). -/
def CmdFields.reservedClear (f : CmdFields) : Bool := f.rsv == 0

/-- `OP` names an operation: 1 to 7 (R73, R74). -/
def CmdFields.opNamed (f : CmdFields) : Bool := 1 ≤ f.op.toNat && f.op.toNat ≤ 7

/-- `L` "must be 0 for every other operation" than a pack (3) and an unpack (4) (R70, R74). -/
def CmdFields.lenFlagAllowed (f : CmdFields) : Bool := f.l == 0 || f.op == 3 || f.op == 4

/-- The fields spell one of the nine commands (R73, R74). -/
def CmdFields.wf (f : CmdFields) : Bool := f.reservedClear && f.opNamed && f.lenFlagAllowed

/-- The columns `OP` and `L` of the command table (R73). -/
def Instr.fields : Instr → CmdFields
  | .encw    => ⟨0, 0, 1⟩
  | .decw    => ⟨0, 0, 2⟩
  | .pack    => ⟨0, 0, 3⟩
  | .packl   => ⟨0, 1, 3⟩
  | .unpack  => ⟨0, 0, 4⟩
  | .unpackl => ⟨0, 1, 4⟩
  | .ldkey   => ⟨0, 0, 5⟩
  | .enc     => ⟨0, 0, 6⟩
  | .dec     => ⟨0, 0, 7⟩

/-- An instruction is well formed when its fields are: each of the nine is (`wf_all` in the laws). -/
def Instr.wf (i : Instr) : Bool := i.fields.wf

end Sys2Proof
end

