-- ==== Sys2Proof/Decode.lean ====
section
/-! DEFINITION. Decoding of a command word, "total on all `2^32` values" (30_encoding R72), and the encoder
from the table of R73. Decoding depends on the word alone (R72). -/

namespace Sys2Proof

/-- Why a word is no command (R74). -/
inductive Illegal
  /-- A bit of 31:5 is set. -/
  | reservedBits
  /-- `OP` is 0 or 8 to 15. -/
  | unnamedOp
  /-- `L = 1` with an operation that takes no length flag. -/
  | lenFlag
deriving DecidableEq, Repr

/-- The fields of a command word (R70). -/
def splitFields (c : Word) : CmdFields :=
  { rsv := c.extractLsb' 5 27, l := c.extractLsb' 4 1, op := c.extractLsb' 0 4 }

/-- The word of given fields (R70). -/
def joinFields (f : CmdFields) : Word := f.rsv ++ f.l ++ f.op

/-- The case table of R72 on (`OP`, `L`), once the reserved bits are known to be 0. -/
def decodeOp (op l : Nat) : Except Illegal Instr :=
  match op, l with
  | 1, 0 => .ok .encw
  | 2, 0 => .ok .decw
  | 3, 0 => .ok .pack
  | 3, 1 => .ok .packl
  | 4, 0 => .ok .unpack
  | 4, 1 => .ok .unpackl
  | 5, 0 => .ok .ldkey
  | 6, 0 => .ok .enc
  | 7, 0 => .ok .dec
  | op, _ => if 1 ≤ op ∧ op ≤ 7 then .error .lenFlag else .error .unnamedOp

/-- Decoding of the word `c` written to `CMD` (R72): reserved bits first, then (`OP`, `L`). -/
def decode (c : Word) : Except Illegal Instr :=
  let f := splitFields c
  if f.rsv ≠ 0 then .error .reservedBits else decodeOp f.op.toNat f.l.toNat

/-- The command word of an instruction, from the columns `OP` and `L` of R73. -/
def encode (i : Instr) : Word := joinFields i.fields

/-- What the decoder reads from an opcode-table word: a command is the one 32-bit value written to `CMD`
(R70), so `w` is that value and bits above `nbits` are 0. -/
def decodeTableWord (nbits w : Nat) : Option Instr :=
  match decode (BitVec.ofNat 32 (w % 2 ^ nbits)) with
  | .ok i => some i
  | .error _ => none

end Sys2Proof
end

