-- ==== Sys2Proof/Config.lean ====
section
/-! DEFINITION. What the spec leaves to the implementation: the parameters `WCAP` and `BASE` (00_scope R7,
20_memory R60, 93 U3) and the free values that stand for unspecified buffer contents (10_state R35, 93 U1). -/

namespace Sys2Proof

/-- A word-buffer capacity the spec allows: "`WCAP`, the capacity of the word buffer in 32-bit words, with
`2 <= WCAP <= 2^22`" (R7). A larger one is outside the spec (93 U6), so it cannot be written down. -/
structure Capacity where
  words  : Nat
  two_le : 2 ≤ words
  le_max : words ≤ 2 ^ 22
deriving DecidableEq, Repr

/-- The parameters of one engine, constant in every run (R7, R36, R60). They stand in `State` so that a
claim about every state is a claim about every parameter value (log entries 1 and 2). -/
structure Params where
  /-- `WCAP` (R7). -/
  wcap : Capacity
  /-- `BASE`, the engine's base address, which the platform chooses (R60). -/
  base : Nat
deriving DecidableEq, Repr

/-- `BCAP = 4 * WCAP`, the byte buffer's capacity (R7). -/
def Params.bcap (p : Params) : Nat := 4 * p.wcap.words

namespace Config

/-- DESIGN CHOICE (log entries 1 and 2): the parameters of the state after reset. `WCAP = 1024` is the
spec's suggestion (R7); `BASE = 0` makes host addresses equal to the offsets of R77. -/
def resetParams : Params := { wcap := ⟨1024, by decide, by decide⟩, base := 0 }

/-- FREE VALUE (log entry 3): what byte-buffer cell `i` holds after the `gen`-th reset until it is
written: "unspecified: any byte value, not necessarily the same after each reset" (R35). -/
opaque freeByte (gen i : Nat) : Byte

/-- FREE VALUE (log entry 3): what word-buffer cell `i` holds after the `gen`-th reset until it is
written (R35). -/
opaque freeWord (gen i : Nat) : Word

end Config

end Sys2Proof
end

