-- ==== Sys2Proof/Machine/State.lean ====
section
/-! DEFINITION. The state of the engine (10_state R20) with its parameters, the host's side of the host
port, and the reasons a step can stop. -/

namespace Sys2Proof.Machine

/-- A buffer: the cells written since the last reset, as (index, value) pairs with strictly rising
indices. An unlisted cell has not been written since reset (log entry 4). -/
abbrev Memory (α : Type) := List (Nat × α)

/-- The key registers `KEY[0]`..`KEY[3]` (R21). -/
structure KeyRegs where
  k0 : Word
  k1 : Word
  k2 : Word
  k3 : Word
deriving DecidableEq, Repr

/-- The values of `STATUS.ERR` (R25, 60_exceptions R160). -/
inductive ErrCode
  /-- 0: the last command succeeded. -/
  | ok
  /-- 1 `ERR_CMD`: the command word is illegal (R161). -/
  | cmd
  /-- 2 `ERR_ARG`: a length register holds a value the command cannot accept (R162). -/
  | arg
  /-- 3 `ERR_LENGTH`: the embedded length fails the range test (R163). -/
  | length
deriving DecidableEq, Repr

/-- The registers of the register region, at offsets `0x00`, `0x04`, .. `0x1C` (R20). -/
inductive Reg
  | cmd
  | status
  | blen
  | wlen
  | key0
  | key1
  | key2
  | key3
deriving DecidableEq, Repr

/-- One host access (20_memory R50, R53; 30_encoding R77): a host address, a width in bits and, for a
write, the value on the data lines (an 8-bit write takes its low 8 bits, log entry 10). -/
inductive HostAccess
  | read (addr width : Nat)
  | write (addr width : Nat) (value : Word)
deriving DecidableEq, Repr

/-- What the world outside can do to the engine: an access (R14, R59) or a reset (R180). -/
inductive HostEvent
  | access (a : HostAccess)
  | reset
deriving DecidableEq, Repr

/-- The data a host read returns: "a register or WB access moves one 32-bit number, a BB access one 8-bit
number" (R52). -/
inductive ReadData
  | word (w : Word)
  | byte (b : Byte)
deriving DecidableEq, Repr

/-- The machine. `params` to `p` are the engine (R20, R36); `gen`, `pending` and `response` are the model's
own fields (log entries 3 and 5). -/
structure State where
  /-- `WCAP` and `BASE` (R7, R60): constant. -/
  params   : Params
  /-- `STATUS`: `DONE` in bit 0, `ERR` in bits 2:1, bits 31:3 read as 0 (R25). -/
  status   : Word
  /-- `BLEN`: the number of valid bytes in BB (R22). -/
  blen     : Word
  /-- `WLEN`: the number of valid words in WB (R23). -/
  wlen     : Word
  /-- `KEY[0..3]` (R21). -/
  key      : KeyRegs
  /-- The byte buffer BB (R28). -/
  bb       : List Host.Cell
  /-- The word buffer WB (R28). -/
  wb       : List (Nat × Word)
  /-- `SUM`, the internal sum accumulator (R29). -/
  sum      : Word
  /-- `RND`, the internal count of outer rounds still to run (R29). -/
  rnd      : BitVec 6
  /-- `P`, the internal inner position (R29). -/
  p        : Nat
  /-- The free-value counter: how many resets the engine has taken (log entry 3). -/
  gen      : Nat
  /-- The host events not yet taken, oldest first (R59, log entry 5). -/
  pending  : List HostEvent
  /-- The data the last host access returned, if it was a read (R56, log entry 5). -/
  response : Option ReadData
deriving DecidableEq, Repr

/-- Why the machine stops with a fault. -/
inductive Fault
  /-- "A host access fault ends the offending host transaction with an error response to the host. It
  changes no engine state ..., starts no command, and a faulting read returns no data" (R54). Raised by
  `step` for an access of the wrong width, a misaligned one or an unmapped one (R53, R61). Safe: the model
  stops where the host could go on with its next access (log entry 7). -/
  | hostAccess (a : HostAccess)
deriving DecidableEq, Repr

/-- Why an instruction has no meaning. No arm of `exec` uses it: every command is modelled. -/
inductive Refusal
  /-- The instruction named is not modelled. Safe. -/
  | notModelled (mnemonic : String)
deriving DecidableEq, Repr

/-- The engine right after reset (R35, R180): every register zero, no buffer cell written, idle. The
parameters' values are log entries 1 and 2; `gen`, `pending` and `response` are the model's own. -/
def State.reset : State where
  params   := Config.resetParams
  status   := 0
  blen     := 0
  wlen     := 0
  key      := ⟨0, 0, 0, 0⟩
  bb       := []
  wb       := []
  sum      := 0
  rnd      := 0
  p        := 0
  gen      := 0
  pending  := []
  response := none

end Sys2Proof.Machine
end

