-- ==== Sys2Proof/Machine/Flags.lean ====
section
/-! DEFINITION. The `STATUS` register's fields (10_state R25), the only flags of the engine. -/

namespace Sys2Proof.Machine

/-- The two-bit code of an outcome in `STATUS.ERR` (R25, 60_exceptions R160). -/
def ErrCode.code : ErrCode → BitVec 2
  | .ok     => 0
  | .cmd    => 1
  | .arg    => 2
  | .length => 3

/-- `STATUS` as a completed command writes it: "`DONE <- 1`, `ERR <- ` the outcome", bits 31:3 zero (R25). -/
def statusWord (e : ErrCode) : Word := (0 : BitVec 29) ++ e.code ++ (1 : BitVec 1)

/-- `STATUS.DONE`, bit 0 (R25). -/
def State.done (s : State) : BitVec 1 := s.status.extractLsb' 0 1

/-- `STATUS.ERR`, bits 2:1 (R25). -/
def State.err (s : State) : BitVec 2 := s.status.extractLsb' 1 2

end Sys2Proof.Machine
end

