-- ==== Sys2Proof/Machine/Ops.lean ====
section
/-! DEFINITION. The operations every meaning is written over: buffer cells, register writes, counted loops,
raising an error (60_exceptions R167), finishing a command (10_state R25), and reset (70_reset R180). -/

namespace Sys2Proof.Machine

/-- The value of cell `i`, if it has been written since reset. -/
def Memory.get? {α : Type} : Memory α → Nat → Option α
  | [], _ => none
  | (k, v) :: m, i => if i = k then some v else Memory.get? m i

/-- Write `v` to cell `i`, keeping the indices strictly rising. -/
def Memory.set {α : Type} : Memory α → Nat → α → Memory α
  | [], i, v => [(i, v)]
  | (k, x) :: m, i, v =>
    if i < k then (i, v) :: (k, x) :: m
    else if i = k then (i, v) :: m
    else (k, x) :: Memory.set m i v

/-- The canonical form: indices strictly rising, so that no cell is listed twice. -/
def Memory.wf {α : Type} : Memory α → Bool
  | [] => true
  | [_] => true
  | (k, _) :: (k', v') :: m => decide (k < k') && Memory.wf ((k', v') :: m)

/-- Every listed index is below the buffer's capacity. -/
def Memory.below {α : Type} (cap : Nat) (m : Memory α) : Bool := m.all fun c => decide (c.1 < cap)

/-- `WCAP` (R7). -/
def State.wcap (s : State) : Nat := s.params.wcap.words

/-- `BCAP` (R7). -/
def State.bcap (s : State) : Nat := s.params.bcap

/-- What a byte-buffer cell not written since reset reads as: a free value (R35, 93 U1). -/
def State.unwrittenByte (s : State) (i : Nat) : Byte := Config.freeByte s.gen i

/-- What a word-buffer cell not written since reset reads as: a free value (R35, 93 U1). -/
def State.unwrittenWord (s : State) (i : Nat) : Word := Config.freeWord s.gen i

/-- `MemRead(BB, i, 1)` (00_scope R13). -/
def State.readB (s : State) (i : Nat) : Byte := (Memory.get? s.bb i).getD (s.unwrittenByte i)

/-- `MemRead(WB, i, 4)` (R13). -/
def State.readW (s : State) (i : Nat) : Word := (Memory.get? s.wb i).getD (s.unwrittenWord i)

/-- `MemWrite(BB, i, 1, v)` (R13). -/
def State.writeB (s : State) (i : Nat) (v : Byte) : State := { s with bb := Memory.set s.bb i v }

/-- `MemWrite(WB, i, 4, v)` (R13). -/
def State.writeW (s : State) (i : Nat) (v : Word) : State := { s with wb := Memory.set s.wb i v }

/-- `STATUS <- v`. -/
def State.setStatus (s : State) (v : Word) : State := { s with status := v }

/-- `BLEN <- v` (R22). -/
def State.setBlen (s : State) (v : Word) : State := { s with blen := v }

/-- `WLEN <- v` (R23). -/
def State.setWlen (s : State) (v : Word) : State := { s with wlen := v }

/-- `KEY[0..3] <- v` (R21). -/
def State.setKey (s : State) (v : KeyRegs) : State := { s with key := v }

/-- `SUM <- v` (R29). -/
def State.setSum (s : State) (v : Word) : State := { s with sum := v }

/-- `RND <- v` (R29). -/
def State.setRnd (s : State) (v : BitVec 6) : State := { s with rnd := v }

/-- `P <- v` (R29). -/
def State.setP (s : State) (v : Nat) : State := { s with p := v }

/-- The host event at the head of the queue is taken: the rest is left. -/
def State.setPending (s : State) (v : List HostEvent) : State := { s with pending := v }

/-- The data returned to the host. -/
def State.setResponse (s : State) (v : Option ReadData) : State := { s with response := v }

/-- `KEY[j]`, `0 <= j <= 3` (R13, R21). -/
def KeyRegs.get (k : KeyRegs) (j : BitVec 2) : Word :=
  if j = 0 then k.k0 else if j = 1 then k.k1 else if j = 2 then k.k2 else k.k3

/-- `for i = 0 to n - 1: body` (R13): "inclusive bounds, step 1; the body does not run when the range is
empty". -/
def forUp : Nat → (Nat → State → State) → State → State
  | 0, _, s => s
  | n + 1, body, s => body n (forUp n body s)

/-- The last action of a command that succeeds: `STATUS <- 0x00000001` (R25). -/
def State.succeed (s : State) : State := s.setStatus (statusWord .ok)

/-- `raise ERR_x` (R13, R160 to R163, R167): the command ends with `STATUS.ERR` set. `ERR_CMD` and `ERR_ARG`
change nothing else; `ERR_LENGTH` also does `BLEN <- 0`. No vector, no saved state, no return (R167, R169). -/
def State.raise (s : State) (e : ErrCode) : State :=
  match e with
  | .ok     => s.succeed
  | .cmd    => s.setStatus (statusWord .cmd)
  | .arg    => s.setStatus (statusWord .arg)
  | .length => (s.setBlen 0).setStatus (statusWord .length)

/-- Reset (R35, R180, R182): registers at their reset values, every cell of both buffers unspecified (the
next generation of free values), the host's events still held off dropped (93 U5, log entry 8). -/
def State.takeReset (s : State) : State :=
  { State.reset with params := s.params, gen := s.gen + 1 }

end Sys2Proof.Machine
end

