-- ==== Sys2Proof/Machine/Operands.lean ====
section
/-! DEFINITION. The implicit operands of the commands (30_encoding R71) and the length checks made before any
buffer access (60_exceptions R162). -/

namespace Sys2Proof.Machine

/-- `len`, the number of valid bytes: `BLEN` as an integer (10_state R22). -/
def State.byteCount (s : State) : Nat := s.blen.toNat

/-- `m`, the block length in words: `WLEN` as an integer (10_state R23). -/
def State.wordCount (s : State) : Nat := s.wlen.toNat

/-- `ceil(len / 4)`, which "equals `floor((len + 3) / 4)`" (00_scope R12, 41_codec R120). -/
def wordsFor (len : Nat) : Nat := (len + 3) / 4

/-- `BLEN = 0` or `BLEN > limit` (R162; `limit` is `BCAP` or `BCAP - 4`). -/
def State.byteCountBad (s : State) (limit : Nat) : Bool :=
  decide (s.byteCount = 0) || decide (limit < s.byteCount)

/-- `WLEN > WCAP` (R162, `ENCW` and `DECW`). -/
def State.blockTooLong (s : State) : Bool := decide (s.wcap < s.wordCount)

/-- `WLEN = 0` or `WLEN > WCAP` (R162, `UNPACK` and `UNPACKL`). -/
def State.wordCountBad (s : State) : Bool := decide (s.wordCount = 0) || s.blockTooLong

/-- The embedded length: "the last word of the block, at index `WLEN - 1`" (41_codec R124, R127). -/
def State.embeddedLength (s : State) : Nat := (s.readW (s.wordCount - 1)).toNat

/-- `nb = 4 * (wc - 1)`, the bytes held by the data words (R127). -/
def State.dataBytes (s : State) : Nat := 4 * (s.wordCount - 1)

/-- The range test `nb - 4 < L and L <= nb`, an "integer comparison" (R127, 00_scope R12). -/
def State.lengthOk (s : State) : Bool :=
  decide ((s.dataBytes : Int) - 4 < (s.embeddedLength : Int)) && decide (s.embeddedLength ≤ s.dataBytes)

/-- A command whose lengths are checked first: `ERR_ARG` if the check fails, "before the command reads or
writes any buffer cell" (R162); otherwise what `run` does, which ends with its own write of `STATUS`. -/
def checked (bad : Bool) (run : State → State) (s : State) : Host.Outcome State Fault Refusal :=
  .next (if bad then s.raise .arg else run s)

end Sys2Proof.Machine
end

