-- ==== Sys2Proof/Machine/Codec.lean ====
section
/-! DEFINITION. The Byte/Word Codec: `PACK`, `PACKL`, `UNPACK`, `UNPACKL` (41_codec R120 to R133). -/

namespace Sys2Proof.Machine

/-- `8 * (i mod 4)`: where byte `i` sits in its word, "least significant byte first" (R121, 20_memory R51). -/
def laneShift (i : Nat) : Nat := 8 * (i % 4)

/-- "for j = 0 to wc - 1: WB[j] <- 0" (R122, R123). -/
def clearWords (wc : Nat) (s : State) : State := forUp wc (fun j s => s.writeW j 0) s

/-- "WB[floor(i / 4)] <- WB[floor(i / 4)] | (zext_32(BB[i]) << (8 * (i mod 4)))" (R122, R123). -/
def orByte (i : Nat) (s : State) : State :=
  s.writeW (i / 4) (s.readW (i / 4) ||| ((s.readB i).setWidth 32 <<< laneShift i))

/-- `BB[0 .. len-1]` packed into `WB[0 .. wc-1]` (R121, R122). -/
def packBytes (s : State) : State :=
  forUp s.byteCount orByte (clearWords (wordsFor s.byteCount) s)

/-- The work of `PACK`: pack, then `WLEN <- wc` (R122). -/
def packWork (s : State) : State :=
  (packBytes s).setWlen (BitVec.ofNat 32 (wordsFor s.byteCount))

/-- The work of `PACKL`: pack, then "WB[wc] <- len" and `WLEN <- wc + 1` (R123). -/
def packlWork (s : State) : State :=
  ((packBytes s).writeW (wordsFor s.byteCount) s.blen).setWlen (BitVec.ofNat 32 (wordsFor s.byteCount + 1))

/-- "(WB[floor(i / 4)] >> (8 * (i mod 4))) & 0xFF" (R125). -/
def State.unpackedByte (s : State) (i : Nat) : Byte := (s.readW (i / 4) >>> laneShift i).setWidth 8

/-- "for i = 0 to n - 1: BB[i] <- ..." and `BLEN <- n` (R126, R127). -/
def unpackBytes (n : Nat) (s : State) : State :=
  (forUp n (fun i s => s.writeB i (s.unpackedByte i)) s).setBlen (BitVec.ofNat 32 n)

/-- The work of `UNPACK`: all `4 * WLEN` bytes (R126). -/
def unpackWork (s : State) : State := unpackBytes (4 * s.wordCount) s

/-- `UNPACKL` after its length check (R127, R163): `ERR_LENGTH` if the range test fails, otherwise the `L`
bytes. It writes `STATUS` itself. -/
def unpacklRun (s : State) : State :=
  if s.lengthOk then (unpackBytes s.embeddedLength s).succeed else s.raise .length

/-- `PACK` (R122). -/
def execPack (s : State) : Host.Outcome State Fault Refusal :=
  checked (s.byteCountBad s.bcap) (fun s => (packWork s).succeed) s

/-- `PACKL` (R123): "len > BCAP - 4 then raise ERR_ARG -- needs wc + 1 <= WCAP". -/
def execPackl (s : State) : Host.Outcome State Fault Refusal :=
  checked (s.byteCountBad (s.bcap - 4)) (fun s => (packlWork s).succeed) s

/-- `UNPACK` (R126). -/
def execUnpack (s : State) : Host.Outcome State Fault Refusal :=
  checked s.wordCountBad (fun s => (unpackWork s).succeed) s

/-- `UNPACKL` (R127). -/
def execUnpackl (s : State) : Host.Outcome State Fault Refusal :=
  checked s.wordCountBad unpacklRun s

end Sys2Proof.Machine
end

