-- ==== Sys2Proof/Machine/Transform.lean ====
section
/-! DEFINITION. The Word Transform: `ENCW` and `DECW` (40_word_transform R90 to R103), in the step-level form of
R97 and R100, so that `SUM`, `RND` and `P` run as the spec says. -/

namespace Sys2Proof.Machine

/-- `DELTA` (R90). In a sum or a product it is written first: a proof checker that compares `x + DELTA` with `x`
would otherwise count up to it. -/
def delta : Word := 0x9E3779B9

/-- The key-select index `e = (SUM >> 2) & 3` (R91): bits 3:2 of `SUM`. -/
def keySelect (sum : Word) : BitVec 2 := sum.extractLsb' 2 2

/-- The mixing function `MX(sum, y, z, p, e, K)` with the named parts of R92. -/
def mx (sum y z : Word) (p : Nat) (e : BitVec 2) (k : KeyRegs) : Word :=
  let a := (z >>> 5) ^^^ (y <<< 2)
  let b := (y >>> 3) ^^^ (z <<< 4)
  let c := a + b
  let d := sum ^^^ y
  let ki := BitVec.ofNat 2 p ^^^ e
  let f := k.get ki ^^^ z
  let g := d + f
  c ^^^ g

/-- The number of outer rounds of a block of `m >= 2` words: `q = 6 + floor(52 / m)` (R93). -/
def rounds (m : Nat) : Nat := 6 + 52 / m

/-- `y`, "the word after p; W[0] when p = n", read in place (R95). -/
def State.nextWord (s : State) (p : Nat) : Word := s.readW ((p + 1) % s.wordCount)

/-- `z`, "the word before p; W[n] when p = 0", read in place (R95). -/
def State.prevWord (s : State) (p : Nat) : Word := s.readW ((p + s.wordCount - 1) % s.wordCount)

/-- `MX` at the current position, from the current `SUM` and neighbours (R97, R100). -/
def State.mixHere (s : State) : Word :=
  mx s.sum (s.nextWord s.p) (s.prevWord s.p) s.p (keySelect s.sum) s.key

/-- The start of an outer round of `ENCW`: "if P = 0 then SUM <- SUM + DELTA" (R97). -/
def encBegin (s : State) : State := if s.p = 0 then s.setSum (delta + s.sum) else s

/-- `WB[P] <- WB[P] + MX` (R97). -/
def encUpdate (s : State) : State := s.writeW s.p (s.readW s.p + s.mixHere)

/-- `ENCW`'s advance of (`RND`, `P`) (R33, R97). -/
def encAdvance (s : State) : State :=
  if s.p = s.wordCount - 1 then (s.setP 0).setRnd (s.rnd - 1) else s.setP (s.p + 1)

/-- One step of `ENCW` (R97). -/
def encStep (s : State) : State := encAdvance (encUpdate (encBegin s))

/-- `WB[P] <- WB[P] - MX` (R100). -/
def decUpdate (s : State) : State := s.writeW s.p (s.readW s.p - s.mixHere)

/-- `DECW`'s advance of (`RND`, `P`), with `SUM <- SUM - DELTA` at the end of a round (R33, R100). -/
def decAdvance (s : State) : State :=
  if s.p = 0 then ((s.setP (s.wordCount - 1)).setRnd (s.rnd - 1)).setSum (s.sum - delta)
  else s.setP (s.p - 1)

/-- One step of `DECW` (R100). -/
def decStep (s : State) : State := decAdvance (decUpdate s)

/-- `ENCW`'s initial `SUM`, `RND`, `P` (R97). -/
def encInit (s : State) : State :=
  ((s.setSum 0).setRnd (BitVec.ofNat 6 (rounds s.wordCount))).setP 0

/-- `DECW`'s initial `SUM`, `RND`, `P` (R100). -/
def decInit (s : State) : State :=
  ((s.setSum (delta * BitVec.ofNat 32 (rounds s.wordCount))).setRnd
    (BitVec.ofNat 6 (rounds s.wordCount))).setP (s.wordCount - 1)

/-- The encryption of the block `WB[0 .. WLEN-1]`: nothing when `WLEN < 2` (R103), otherwise "exactly
`q * m` steps" (R97). -/
def encBlock (s : State) : State :=
  if s.wordCount < 2 then s else encStep^[rounds s.wordCount * s.wordCount] (encInit s)

/-- The decryption of the block (R99, R100, R103). -/
def decBlock (s : State) : State :=
  if s.wordCount < 2 then s else decStep^[rounds s.wordCount * s.wordCount] (decInit s)

/-- `ENCW` (R96). -/
def execEncw (s : State) : Host.Outcome State Fault Refusal :=
  checked s.blockTooLong (fun s => (encBlock s).succeed) s

/-- `DECW` (R99). -/
def execDecw (s : State) : Host.Outcome State Fault Refusal :=
  checked s.blockTooLong (fun s => (decBlock s).succeed) s

end Sys2Proof.Machine
end

