-- ==== Sys2Proof/Machine/Composite.lean ====
section
/-! DEFINITION. The composed operations `ENC` and `DEC` (43_composite R150 to R157): the three stages of the
single commands, each "run on the state the stage before left", with the argument check once at the start
and `STATUS` written once at the end. -/

namespace Sys2Proof.Machine

/-- `ENC` (R151): `PACKL`, `ENCW`, `UNPACK`. -/
def execEnc (s : State) : Host.Outcome State Fault Refusal :=
  checked (s.byteCountBad (s.bcap - 4)) (fun s => (unpackWork (encBlock (packlWork s))).succeed) s

/-- `DEC` (R152): `PACK`, `DECW`, `UNPACKL`. On `ERR_LENGTH` the writes of the first two stages stand
(60_exceptions R163, R167). -/
def execDec (s : State) : Host.Outcome State Fault Refusal :=
  checked (s.byteCountBad s.bcap) (fun s => unpacklRun (decBlock (packWork s))) s

end Sys2Proof.Machine
end

