-- ==== Sys2Proof/Machine/KeyLoad.lean ====
section
/-! DEFINITION. Key normalisation: `LDKEY` (42_key_load R140 to R145). -/

namespace Sys2Proof.Machine

/-- "nk[i] <- (if i < kc then BB[i] else 0x00)" (R141). -/
def State.normKeyByte (s : State) (i : Nat) : Byte := if i < s.byteCount then s.readB i else 0

/-- "KEY[j] <- zext_32(nk[4j]) | zext_32(nk[4j+1]) << 8 | zext_32(nk[4j+2]) << 16 | zext_32(nk[4j+3]) << 24"
(R140, R141). -/
def State.normKeyWord (s : State) (j : Nat) : Word :=
  (s.normKeyByte (4 * j)).setWidth 32 ||| ((s.normKeyByte (4 * j + 1)).setWidth 32 <<< 8)
    ||| ((s.normKeyByte (4 * j + 2)).setWidth 32 <<< 16) ||| ((s.normKeyByte (4 * j + 3)).setWidth 32 <<< 24)

/-- The work of `LDKEY` (R141). -/
def loadKey (s : State) : State :=
  s.setKey ⟨s.normKeyWord 0, s.normKeyWord 1, s.normKeyWord 2, s.normKeyWord 3⟩

/-- `LDKEY` (R141). -/
def execLdkey (s : State) : Host.Outcome State Fault Refusal :=
  checked (s.byteCountBad s.bcap) (fun s => (loadKey s).succeed) s

end Sys2Proof.Machine
end

