-- ==== Sys2Proof/Machine/Dispatch.lean ====
section
/-! DEFINITION. The meaning of every command (30_encoding R73, last column). -/

namespace Sys2Proof.Machine

/-- The state after the command `i` in state `s` (R73). -/
def exec (i : Instr) (s : State) : Host.Outcome State Fault Refusal :=
  match i with
  | .encw => Sys2Proof.Machine.execEncw s
  | .decw => Sys2Proof.Machine.execDecw s
  | .pack => Sys2Proof.Machine.execPack s
  | .packl => Sys2Proof.Machine.execPackl s
  | .unpack => Sys2Proof.Machine.execUnpack s
  | .unpackl => Sys2Proof.Machine.execUnpackl s
  | .ldkey => Sys2Proof.Machine.execLdkey s
  | .enc => Sys2Proof.Machine.execEnc s
  | .dec => Sys2Proof.Machine.execDec s

end Sys2Proof.Machine
end

