-- ==== Sys2Proof/Machine/HostPort.lean ====
section
/-! DEFINITION. The host port (20_memory R50 to R61): the address map, the access shapes, and what each access
does. A write to `CMD` is handed to the step, which runs the command. -/

namespace Sys2Proof.Machine

/-- The cell an access reaches (R50). -/
inductive Target
  | reg (r : Reg)
  | byte (i : Nat)
  | word (i : Nat)
deriving DecidableEq, Repr

/-- What taking one host event comes to. -/
inductive Effect
  /-- Nothing is pending: the engine is idle. -/
  | idle
  /-- The event is finished. -/
  | done (s : State)
  /-- `c` was written to `CMD` (R26). -/
  | command (c : Word) (s : State)
  /-- A host access fault (R54). -/
  | faulted (a : HostAccess)
deriving DecidableEq, Repr

/-- The offset of the BB window (R60). -/
def bbWindow : Nat := 0x01000000

/-- The offset of the WB window (R60). -/
def wbWindow : Nat := 0x02000000

/-- The offset of a register (R20). -/
def Reg.offset : Reg → Nat
  | .cmd    => 0x00
  | .status => 0x04
  | .blen   => 0x08
  | .wlen   => 0x0C
  | .key0   => 0x10
  | .key1   => 0x14
  | .key2   => 0x18
  | .key3   => 0x1C

/-- The register at an offset of the register region that is a multiple of 4 (R20, R60). -/
def regAt (off : Nat) : Option Reg :=
  [Reg.cmd, .status, .blen, .wlen, .key0, .key1, .key2, .key3].find? fun r => r.offset == off

/-- The cell reached at an offset by an access of `width` bits (R53, R60, R61): none is a host access
fault. -/
def targetAt (prm : Params) (off width : Nat) : Option Target :=
  if off < 0x20 then
    if width = 32 then (regAt off).map .reg else none
  else if bbWindow ≤ off ∧ off < bbWindow + prm.bcap then
    if width = 8 then some (.byte (off - bbWindow)) else none
  else if wbWindow ≤ off ∧ off < wbWindow + 4 * prm.wcap.words then
    if width = 32 ∧ (off - wbWindow) % 4 = 0 then some (.word ((off - wbWindow) / 4)) else none
  else none

/-- The cell reached at a host address: offsets are from `BASE` (R60), and an address below `BASE` is no
offset of the engine (log entry 2). -/
def target (prm : Params) (addr width : Nat) : Option Target :=
  if addr < prm.base then none else targetAt prm (addr - prm.base) width

/-- The value a register reads as: `CMD` "returns `0x00000000`" (R26). -/
def State.readReg (s : State) : Reg → Word
  | .cmd    => 0
  | .status => s.status
  | .blen   => s.blen
  | .wlen   => s.wlen
  | .key0   => s.key.k0
  | .key1   => s.key.k1
  | .key2   => s.key.k2
  | .key3   => s.key.k3

/-- A host write to a register that is not `CMD`: it stores the value; "a write to `STATUS` is ignored"
(R25, R56). -/
def State.writeReg (s : State) (r : Reg) (v : Word) : State :=
  match r with
  | .cmd    => s
  | .status => s
  | .blen   => s.setBlen v
  | .wlen   => s.setWlen v
  | .key0   => s.setKey { s.key with k0 := v }
  | .key1   => s.setKey { s.key with k1 := v }
  | .key2   => s.setKey { s.key with k2 := v }
  | .key3   => s.setKey { s.key with k3 := v }

/-- The data a host read of a cell returns (R52). -/
def State.readTarget (s : State) : Target → ReadData
  | .reg r  => .word (s.readReg r)
  | .byte i => .byte (s.readB i)
  | .word i => .word (s.readW i)

/-- A host write to a cell (R56): only a write to `CMD` does more than store (R26). -/
def writeTarget (t : Target) (v : Word) (s : State) : Effect :=
  match t with
  | .reg .cmd => .command v s
  | .reg r    => .done (s.writeReg r v)
  | .byte i   => .done (s.writeB i (v.setWidth 8))
  | .word i   => .done (s.writeW i v)

/-- One host access in a state whose queue it has left (R53 to R56). -/
def access (a : HostAccess) (s : State) : Effect :=
  match a with
  | .read addr width =>
    match target s.params addr width with
    | none   => .faulted a
    | some t => .done (s.setResponse (some (s.readTarget t)))
  | .write addr width v =>
    match target s.params addr width with
    | none   => .faulted a
    | some t => writeTarget t v s

/-- The state once its oldest event has been taken off the queue (R59). -/
def State.take (s : State) (rest : List HostEvent) : State := (s.setPending rest).setResponse none

/-- Take the oldest host event, if there is one (R59, R180). -/
def nextEffect (s : State) : Effect :=
  match s.pending with
  | [] => .idle
  | .reset :: _ => .done s.takeReset
  | .access a :: rest => access a (s.take rest)

/-- The host access that issues the command word `c`: a 32-bit write to `CMD` (R26, R77). -/
def cmdWrite (prm : Params) (c : Word) : HostEvent := .access (.write (prm.base + Reg.cmd.offset) 32 c)

/-- The effect of an illegal command word (R161): `ERR_CMD`, whatever makes it illegal. -/
def illegalCommand (s : State) : State := s.raise .cmd

end Sys2Proof.Machine
end

