-- ==== Sys2Proof/Machine/Step.lean ====
section
/-! DEFINITION. One step of the machine: one host event, with the whole command if it is a `CMD` write
(20_memory R58), or nothing when the host does nothing. -/

namespace Sys2Proof.Machine

/-- Run the command word `c` (30_encoding R72): decode first, `ERR_CMD` if it is illegal (R166). -/
def runCommand (c : Word) (s : State) : Host.Outcome State Fault Refusal :=
  match decode c with
  | .ok i    => exec i s
  | .error _ => .next (illegalCommand s)

/-- One step (R58, R59): the oldest host event takes effect whole. -/
def step (s : State) : Host.Outcome State Fault Refusal :=
  match nextEffect s with
  | .idle        => .next s
  | .done s'     => .next s'
  | .command c t => runCommand c t
  | .faulted a   => .fault (.hostAccess a)

/-- The state in which the host's very next access writes the word `w` to `CMD` (log entry 6). -/
def State.withFetchWord (s : State) (nbits w : Nat) : State :=
  s.setPending (cmdWrite s.params (BitVec.ofNat 32 (w % 2 ^ nbits)) :: s.pending)

end Sys2Proof.Machine
end

