-- ==== Sys2Proof/Safety.lean ====
section
/-! DEFINITION. What the claims are stated in: the states the engine can be in between commands, when a length
register is acceptable, and the formulas of the spec's rules as functions of their inputs alone, written
apart from the machine's loops. -/

namespace Sys2Proof.Machine

/-- "So `STATUS` reads as one of `0x00000000` (after reset), `0x00000001` (success), `0x00000003` (`ERR_CMD`),
`0x00000005` (`ERR_ARG`), `0x00000007` (`ERR_LENGTH`)" (10_state R25). -/
def statusLegal (w : Word) : Bool := w == 0 || w == 1 || w == 3 || w == 5 || w == 7

/-- The engine between two commands: both buffers in canonical form and within their capacities (R28,
20_memory R66), `STATUS` a legal value (R25), no round left to run (R31, R101), `P` a position of the word
buffer (R29, R33). -/
structure State.Inv (s : State) : Prop where
  bb_wf     : Memory.wf s.bb = true
  wb_wf     : Memory.wf s.wb = true
  bb_below  : Memory.below s.bcap s.bb = true
  wb_below  : Memory.below s.wcap s.wb = true
  status_ok : statusLegal s.status = true
  rnd_zero  : s.rnd = 0
  p_below   : s.p < s.wcap

/-- The conditions under which the table of 60_exceptions R162 says a command raises `ERR_ARG`. -/
def argError (i : Instr) (s : State) : Bool :=
  match i with
  | .encw    => decide (s.wcap < s.wlen.toNat)
  | .decw    => decide (s.wcap < s.wlen.toNat)
  | .pack    => decide (s.blen.toNat = 0 ∨ s.bcap < s.blen.toNat)
  | .packl   => decide (s.blen.toNat = 0 ∨ s.bcap - 4 < s.blen.toNat)
  | .unpack  => decide (s.wlen.toNat = 0 ∨ s.wcap < s.wlen.toNat)
  | .unpackl => decide (s.wlen.toNat = 0 ∨ s.wcap < s.wlen.toNat)
  | .ldkey   => decide (s.blen.toNat = 0 ∨ s.bcap < s.blen.toNat)
  | .enc     => decide (s.blen.toNat = 0 ∨ s.bcap - 4 < s.blen.toNat)
  | .dec     => decide (s.blen.toNat = 0 ∨ s.bcap < s.blen.toNat)

end Sys2Proof.Machine

namespace Sys2Proof.Rules

open Sys2Proof.Machine

/-- A block as a function of the position. -/
abbrev Block := Nat → Word

/-- `W[p] <- v`. -/
def put (w : Block) (p : Nat) (v : Word) : Block := fun i => if i = p then v else w i

/-- One update of R96's inner loop: `WB[p] <- WB[p] + MX(SUM, y, z, p, e, KEY)`. -/
def encPosition (k : KeyRegs) (m : Nat) (sum : Word) (w : Block) (p : Nat) : Block :=
  put w p (w p + mx sum (w ((p + 1) % m)) (w ((p + m - 1) % m)) p (keySelect sum) k)

/-- One update of R99's inner loop: `WB[p] <- WB[p] - MX(SUM, y, z, p, e, KEY)`. -/
def decPosition (k : KeyRegs) (m : Nat) (sum : Word) (w : Block) (p : Nat) : Block :=
  put w p (w p - mx sum (w ((p + 1) % m)) (w ((p + m - 1) % m)) p (keySelect sum) k)

/-- R96's inner loop, "for p = 0 to m - 1 -- ascending". -/
def encRound (k : KeyRegs) (m : Nat) (sum : Word) (w : Block) : Block :=
  (List.range m).foldl (encPosition k m sum) w

/-- R99's inner loop, "for p = m - 1 downto 0 -- descending": its `i`-th update is of `p = m - 1 - i`. -/
def decRound (k : KeyRegs) (m : Nat) (sum : Word) (w : Block) : Block :=
  (List.range m).foldl (fun w i => decPosition k m sum w (m - 1 - i)) w

/-- R96's outer loop: `r` runs over 1 to `q`, round `r` with `SUM = r * DELTA` (R94). -/
def encrypt (k : KeyRegs) (m : Nat) (w : Block) : Block :=
  (List.range (rounds m)).foldl
    (fun w r => encRound k m (delta * BitVec.ofNat 32 (r + 1)) w) w

/-- R99's outer loop: `j` runs over 1 to `q`, round `j` with `SUM = (q - j + 1) * DELTA` (R94). -/
def decrypt (k : KeyRegs) (m : Nat) (w : Block) : Block :=
  (List.range (rounds m)).foldl
    (fun w j => decRound k m (delta * BitVec.ofNat 32 (rounds m - j)) w) w

/-- The transform a command applies to a block of any length: "blocks of fewer than 2 words are returned
unmodified" (R103). -/
def encryptBlock (k : KeyRegs) (m : Nat) (w : Block) : Block := if m < 2 then w else encrypt k m w

/-- As `encryptBlock`, for decryption (R99, R103). -/
def decryptBlock (k : KeyRegs) (m : Nat) (w : Block) : Block := if m < 2 then w else decrypt k m w

/-- A transform as a function on blocks of exactly `m` words (R102). -/
def onBlock (m : Nat) (f : Block → Block) (w : Fin m → Word) : Fin m → Word :=
  fun i => f (fun j => if h : j < m then w ⟨j, h⟩ else 0) i

/-- The word of R121 at position `j`, "taking b[i] = 0x00 for every i >= len". -/
def packedWord (b : Nat → Byte) (len j : Nat) : Word :=
  let at0 := fun i => if i < len then (b i).setWidth 32 else (0 : Word)
  at0 (4 * j) ||| (at0 (4 * j + 1) <<< 8) ||| (at0 (4 * j + 2) <<< 16) ||| (at0 (4 * j + 3) <<< 24)

/-- The byte of R125 at position `i`: "`(w[floor(i / 4)] >> (8 * (i mod 4))) & 0xFF`". -/
def unpackedByte (w : Block) (i : Nat) : Byte := ((w (i / 4) >>> (8 * (i % 4))) &&& 0xFF).setWidth 8

/-- The key register `j` of R140: the packing of the first 16 key bytes, zero-extended. -/
def keyWord (b : Nat → Byte) (kc j : Nat) : Word := packedWord b (min kc 16) j

/-- The range test of R127, `nb - 4 < L and L <= nb` on integers with `nb = 4 * (wc - 1)`, for a block of `wc`
words whose last word is `l`. -/
abbrev lengthAccepted (wc l : Nat) : Prop :=
  4 * ((wc : Int) - 1) - 4 < (l : Int) ∧ (l : Int) ≤ 4 * ((wc : Int) - 1)

/-- The block `PACKL` makes of a byte sequence: the packed words and, at `wc = ceil(len / 4)`, the length (R123). -/
def packedWithLength (b : Nat → Byte) (len : Nat) : Block := fun j =>
  if j = (len + 3) / 4 then BitVec.ofNat 32 len else packedWord b len j

/-- The ciphertext words of `ENC` in state `s` (R151). -/
def encWords (s : State) : Block :=
  encryptBlock s.key ((s.blen.toNat + 3) / 4 + 1) (packedWithLength s.readB s.blen.toNat)

/-- The decrypted words of `DEC` in state `s` (R152). -/
def decWords (s : State) : Block :=
  decryptBlock s.key ((s.blen.toNat + 3) / 4) (packedWord s.readB s.blen.toNat)

/-- The length word `DEC` reads in state `s`: the last decrypted word (R152). -/
def decLength (s : State) : Nat := (decWords s ((s.blen.toNat + 3) / 4 - 1)).toNat

/-- The length word `UNPACKL` reads in state `s` (R127). -/
def lastWord (s : State) : Nat := (s.readW (s.wlen.toNat - 1)).toNat

/-- How many cells of BB, from `BB[0]` up, the command writes (10_state R34; none after `ERR_ARG` and
`ERR_LENGTH`, R162, R163). -/
def bytesStored (i : Instr) (s : State) : Nat :=
  if argError i s then 0
  else match i with
    | .unpack  => 4 * s.wlen.toNat
    | .unpackl => if lengthAccepted s.wlen.toNat (lastWord s) then lastWord s else 0
    | .enc     => 4 * ((s.blen.toNat + 3) / 4 + 1)
    | .dec     => if lengthAccepted ((s.blen.toNat + 3) / 4) (decLength s) then decLength s else 0
    | .encw    => 0
    | .decw    => 0
    | .pack    => 0
    | .packl   => 0
    | .ldkey   => 0

/-- How many cells of WB, from `WB[0]` up, the command writes (R34; none after `ERR_ARG`, R162; none for a block of
fewer than two words, R103). -/
def wordsStored (i : Instr) (s : State) : Nat :=
  if argError i s then 0
  else match i with
    | .encw    => if s.wlen.toNat < 2 then 0 else s.wlen.toNat
    | .decw    => if s.wlen.toNat < 2 then 0 else s.wlen.toNat
    | .pack    => (s.blen.toNat + 3) / 4
    | .packl   => (s.blen.toNat + 3) / 4 + 1
    | .enc     => (s.blen.toNat + 3) / 4 + 1
    | .dec     => (s.blen.toNat + 3) / 4
    | .unpack  => 0
    | .unpackl => 0
    | .ldkey   => 0

/-- The command table of R73: each command's one word. -/
def tableRows : List (Word × Instr) :=
  [(0x00000001, .encw), (0x00000002, .decw), (0x00000003, .pack), (0x00000013, .packl), (0x00000004, .unpack),
    (0x00000014, .unpackl), (0x00000005, .ldkey), (0x00000006, .enc), (0x00000007, .dec)]

/-- R74's list of illegal words: "`OP = 0`, `OP = 8 .. 15`, `L = 1` with `OP` in {0, 1, 2, 5, 6, 7}, and any word with
a bit of `31:5` set". -/
abbrev illegalWord (c : Word) : Prop :=
  c.toNat % 16 = 0 ∨ 8 ≤ c.toNat % 16 ∨ (c.toNat / 16 % 2 = 1 ∧ c.toNat % 16 ∈ [0, 1, 2, 5, 6, 7]) ∨ c.toNat / 32 ≠ 0

/-- An access shape R53 allows at an offset R60 maps: registers and WB 32 bits wide at a multiple of 4, BB 8 bits
wide. -/
abbrev onMap (prm : Params) (off width : Nat) : Prop :=
  (off ≤ 0x1F ∧ off % 4 = 0 ∧ width = 32) ∨
  (0x01000000 ≤ off ∧ off < 0x01000000 + prm.bcap ∧ width = 8) ∨
  (0x02000000 ≤ off ∧ off < 0x02000000 + 4 * prm.wcap.words ∧ off % 4 = 0 ∧ width = 32)

end Sys2Proof.Rules
end

