-- ==== Sys2Proof/Certificates/Slice0/Obligations.lean ====
section
/-! DEFINITION. The statements for the provers, from the numbered rules of spec/. Notation: `s` is the state before,
`t`, `u` states after; `s.blen.toNat` is `len`, `s.wlen.toNat` is `m` or `wc`, `(len + 3) / 4` is `ceil(len / 4)`
(R12). `readB` and `readW` read one cell. A record update `{ s with .. }` names all that differs from `s`. -/

open Sys2Proof Sys2Proof.Machine Sys2Proof.Rules

/-! ## Encoding and stepping -/

/-- R73, word by word, and three words of R74. -/
def Obligations.TableWordsDecodeAsWritten : Prop :=
  decode 0x00000001 = .ok .encw ∧ decode 0x00000002 = .ok .decw ∧ decode 0x00000003 = .ok .pack ∧
  decode 0x00000013 = .ok .packl ∧ decode 0x00000004 = .ok .unpack ∧ decode 0x00000014 = .ok .unpackl ∧
  decode 0x00000005 = .ok .ldkey ∧ decode 0x00000006 = .ok .enc ∧ decode 0x00000007 = .ok .dec ∧
  decode 0x00000000 = .error .unnamedOp ∧ decode 0x00000016 = .error .lenFlag ∧
  decode 0x80000006 = .error .reservedBits

/-- R72, R73: over all 2^32 words, a word decodes to a command exactly when it is that command's row. -/
def Obligations.DecodeIsExactlyTheCommandTable : Prop :=
  ∀ (c : Word) (i : Instr), decode c = .ok i ↔ (c, i) ∈ tableRows

/-- R70: the format loses no bit, the well-formed fields are exactly those that decode, and decoding inverts
encoding. -/
def Obligations.DecodeAcceptsExactlyWellFormedFields : Prop :=
  (∀ i : Instr, decode (encode i) = .ok i) ∧
  (∀ c : Word, joinFields (splitFields c) = c) ∧
  (∀ f : CmdFields, splitFields (joinFields f) = f ∧
    (f.wf = true ↔ ∃ i : Instr, decode (joinFields f) = .ok i ∧ i.fields = f))

/-- R74, R161: the words the rule lists are exactly those of no row of the table, and an illegal word written to
`CMD` sets `STATUS` to `ERR_CMD` and changes nothing else. -/
def Obligations.IllegalWordOnlySetsErrCmd : Prop :=
  (∀ c : Word, illegalWord c ↔ ∀ i : Instr, (c, i) ∉ tableRows) ∧
  (∀ (c : Word) (s : State), illegalWord c → runCommand c s = .next { s with status := 3 })

/-- R26, R58: a step whose host access writes a command's word to `CMD` is that command, whole, run once the access
has left the queue; a step whose host access writes another word there is what the engine does with an illegal
word. `pending` and `response` are the model's own fields (log entry 5). -/
def Obligations.StepRunsTheDecodedCommand : Prop :=
  ∀ (s : State) (rest : List HostEvent) (c : Word),
    s.pending = .access (.write (s.params.base + 0x00) 32 c) :: rest →
    (∀ i : Instr, decode c = .ok i → step s = exec i { s with pending := rest, response := none }) ∧
    (illegalWord c → step s = runCommand c { s with pending := rest, response := none })

/-! ## The host port -/

/-- R56 (with R20, R26, R60): a read of any cell changes nothing and returns the cell's value, `CMD` reading as 0; a
write to `BLEN`, `WLEN`, `KEY[j]`, BB or WB only stores; a write to `STATUS` is ignored; a write to `CMD` runs a
command. -/
def Obligations.HostAccessesReadAndStore : Prop :=
  ∀ (s : State) (rest : List HostEvent) (v : Word),
    let s0 : State := { s with pending := rest, response := none }
    let at' := fun (off : Nat) => s.params.base + off
    (∀ off w, (off, w) ∈ [(0x00, (0 : Word)), (0x04, s.status), (0x08, s.blen), (0x0C, s.wlen), (0x10, s.key.k0),
        (0x14, s.key.k1), (0x18, s.key.k2), (0x1C, s.key.k3)] →
      s.pending = .access (.read (at' off) 32) :: rest → step s = .next { s0 with response := some (.word w) }) ∧
    (∀ i, i < s.bcap → s.pending = .access (.read (at' (0x01000000 + i)) 8) :: rest →
      step s = .next { s0 with response := some (.byte (s.readB i)) }) ∧
    (∀ i, i < s.wcap → s.pending = .access (.read (at' (0x02000000 + 4 * i)) 32) :: rest →
      step s = .next { s0 with response := some (.word (s.readW i)) }) ∧
    (∀ off t, (off, t) ∈ [(0x04, s0), (0x08, { s0 with blen := v }), (0x0C, { s0 with wlen := v }),
        (0x10, { s0 with key := { s.key with k0 := v } }), (0x14, { s0 with key := { s.key with k1 := v } }),
        (0x18, { s0 with key := { s.key with k2 := v } }), (0x1C, { s0 with key := { s.key with k3 := v } })] →
      s.pending = .access (.write (at' off) 32 v) :: rest → step s = .next t) ∧
    (∀ i, i < s.bcap → s.pending = .access (.write (at' (0x01000000 + i)) 8 v) :: rest →
      ∃ t, step s = .next t ∧ t = { s0 with bb := t.bb } ∧ t.readB i = v.setWidth 8 ∧
        ∀ j, j ≠ i → t.readB j = s.readB j) ∧
    (∀ i, i < s.wcap → s.pending = .access (.write (at' (0x02000000 + 4 * i)) 32 v) :: rest →
      ∃ t, step s = .next t ∧ t = { s0 with wb := t.wb } ∧ t.readW i = v ∧ ∀ j, j ≠ i → t.readW j = s.readW j) ∧
    (∀ i, decode v = .ok i → s.pending = .access (.write (at' 0x00) 32 v) :: rest → step s = exec i s0)

/-- R53, R60, R61: an access, read or write, at an offset from `BASE` is a host access fault exactly when its offset
is unmapped or its width or alignment is not the one of its space; any other access has a successor state. Two clauses
rest on the model's choices: that a fault ends the run (R54's "no successor state other than", log entry 7), and that
an access at an address below `BASE`, of whatever width, is such a fault (log entry 2). -/
def Obligations.HostAccessFaultsExactlyOffTheMap : Prop :=
  ∀ (s : State) (rest : List HostEvent) (a : HostAccess) (addr width : Nat),
    (a = .read addr width ∨ ∃ v, a = .write addr width v) → s.pending = .access a :: rest →
    (∀ off, addr = s.params.base + off → ¬ onMap s.params off width → step s = .fault (.hostAccess a)) ∧
    (∀ off, addr = s.params.base + off → onMap s.params off width → ∃ t, step s = .next t) ∧
    (addr < s.params.base → step s = .fault (.hostAccess a))

/-- R35, R180, R182: after reset every register is 0 and no buffer cell holds a known value; so after a reset event,
whatever the engine held and whatever was pending. That an unspecified cell is the free value of the reset's number
is log entry 3, that pending events are dropped is log entry 8. -/
def Obligations.ResetZeroesRegistersAndForgetsBuffers : Prop :=
  (∀ s : State, s = State.reset ∨ (∃ (s0 : State) (rest : List HostEvent),
      s0.pending = .reset :: rest ∧ step s0 = .next s) →
    s.status = 0 ∧ s.blen = 0 ∧ s.wlen = 0 ∧ s.key = ⟨0, 0, 0, 0⟩ ∧ s.sum = 0 ∧ s.rnd = 0 ∧ s.p = 0 ∧
    (∀ i, s.readB i = Config.freeByte s.gen i) ∧ (∀ i, s.readW i = Config.freeWord s.gen i)) ∧
  (∀ (s : State) (rest : List HostEvent), s.pending = .reset :: rest →
    ∃ t, step s = .next t ∧ t.gen = s.gen + 1 ∧ t.params = s.params ∧ t.pending = [])

/-! ## Errors and status -/

/-- R162: each command raises `ERR_ARG` exactly under its row's condition, and then nothing but `STATUS` changes. -/
def Obligations.ArgErrorExactlyPerTable : Prop :=
  ∀ (i : Instr) (s : State),
    (argError i s = true → exec i s = .next { s with status := 5 }) ∧
    (argError i s = false → ∃ t, exec i s = .next t ∧ t.status ≠ 5)

/-- R163: `ERR_LENGTH` from `UNPACKL` and from the third stage of `DEC`: `STATUS <- 7`, `BLEN <- 0`, no byte of BB is
written, and WB, `WLEN`, `KEY` are those of the moment of the test, for `DEC` those `PACK` and `DECW` leave. -/
def Obligations.LengthErrorLeavesEmptyResult : Prop :=
  (∀ s : State, argError .unpackl s = false → ¬ lengthAccepted s.wlen.toNat (lastWord s) →
    exec .unpackl s = .next { s with status := 7, blen := 0 }) ∧
  (∀ s : State, argError .dec s = false → ∃ a b, exec .pack s = .next a ∧ exec .decw a = .next b ∧
    (¬ lengthAccepted b.wlen.toNat (lastWord b) →
      ∃ t, exec .dec s = .next t ∧ t = { b with status := 7, blen := 0 } ∧ t.bb = s.bb ∧ t.key = s.key))

/-- R166: one error at most, in the order decode, lengths, length word: an illegal word reports `ERR_CMD` whatever the
lengths; a legal one with bad lengths `ERR_ARG`; `ERR_LENGTH` only comes from `UNPACKL` and `DEC` with good lengths. -/
def Obligations.ErrorsAreFoundInOrder : Prop :=
  (∀ (c : Word) (s : State), illegalWord c → ∃ t, runCommand c s = .next t ∧ t.err = 1) ∧
  (∀ (c : Word) (i : Instr) (s : State), decode c = .ok i → runCommand c s = exec i s) ∧
  (∀ (i : Instr) (s : State), argError i s = true → ∃ t, exec i s = .next t ∧ t.err = 2) ∧
  (∀ s : State, s.wlen = 0 → ∃ t, exec .unpackl s = .next t ∧ t.err = 2) ∧
  (∀ (i : Instr) (s t : State), exec i s = .next t → t.err = 3 →
    (i = .unpackl ∨ i = .dec) ∧ argError i s = false) ∧
  (∀ (i : Instr) (s t : State), exec i s = .next t → t.err ≠ 1)

/-- R25, R193: every write to `CMD`, legal or not, ends with `DONE = 1` and one of the four outcomes in `STATUS`. -/
def Obligations.EveryCommandEndsByWritingStatus : Prop :=
  ∀ (s : State) (rest : List HostEvent) (c : Word), s.pending = cmdWrite s.params c :: rest →
    ∃ t, step s = .next t ∧ t.done = 1 ∧ (t.status = 1 ∨ t.status = 3 ∨ t.status = 5 ∨ t.status = 7)

/-- R25, R56, R181: nothing but a write to `CMD` or a reset changes `STATUS`. -/
def Obligations.StatusChangesOnlyByCommandOrReset : Prop :=
  ∀ s t : State, step s = .next t → t.status ≠ s.status →
    (∃ rest, s.pending = .reset :: rest) ∨ (∃ c rest, s.pending = cmdWrite s.params c :: rest)

/-- R21, R145: `KEY` changes only by a host write to a key register, by the command `LDKEY`, or by reset. -/
def Obligations.KeyChangesOnlyByKeyWriteLdkeyOrReset : Prop :=
  ∀ s t : State, step s = .next t → t.key ≠ s.key →
    (∃ rest, s.pending = .reset :: rest) ∨
    (∃ off v rest, off ∈ [0x10, 0x14, 0x18, 0x1C] ∧
      s.pending = .access (.write (s.params.base + off) 32 v) :: rest) ∨
    (∃ rest, s.pending = cmdWrite s.params 0x00000005 :: rest)

/-! ## The word transform -/

/-- R92: the mixing function as printed, the key word selected by `(p & 3) ^ e`, and the rule's example; with R91's
`e = (SUM >> 2) & 3` and the value R90 gives `DELTA`, the constant the statements about `SUM` are written in. -/
def Obligations.MixingFunctionAsPrinted : Prop :=
  (∀ (sum y z : Word) (p : Nat) (e : BitVec 2) (k : KeyRegs),
    mx sum y z p e k =
      (((z >>> 5) ^^^ (y <<< 2)) + ((y >>> 3) ^^^ (z <<< 4))) ^^^
        ((sum ^^^ y) + ([k.k0, k.k1, k.k2, k.k3].getD ((p &&& 3) ^^^ e.toNat) 0 ^^^ z))) ∧
  mx 0x9E3779B9 0x00000001 0x80000000 0 2 ⟨0x03020100, 0x07060504, 0x0B0A0908, 0x0F0E0D0C⟩ = 0x2D4182C4 ∧
  (∀ sum : Word, (keySelect sum).toNat = ((sum >>> 2) &&& 3).toNat) ∧
  delta = 0x9E3779B9

/-- R93: `q = 6 + floor(52 / m)`, between 6 and 32 for a block that is transformed, with the rule's table. -/
def Obligations.RoundCountPerTable : Prop :=
  (∀ m, 2 ≤ m → rounds m = 6 + 52 / m ∧ 6 ≤ rounds m ∧ rounds m ≤ 32) ∧
  (∀ m, 53 ≤ m → rounds m = 6) ∧ (∀ m, 27 ≤ m → m ≤ 52 → rounds m = 7) ∧ (∀ m, 18 ≤ m → m ≤ 26 → rounds m = 8) ∧
  (∀ m, 14 ≤ m → m ≤ 17 → rounds m = 9) ∧ (∀ m, 11 ≤ m → m ≤ 13 → rounds m = 10) ∧ rounds 10 = 11 ∧
  rounds 9 = 11 ∧ rounds 8 = 12 ∧ rounds 7 = 13 ∧ rounds 6 = 14 ∧ rounds 5 = 16 ∧ rounds 4 = 19 ∧ rounds 3 = 23 ∧
  rounds 2 = 32

/-- R33, R94, R97, R100: after `r` whole rounds and `k` further steps, `P` is `k` (encryption) or `m - 1 - k`
(decryption), `RND` is `q - r`, and the round under way uses `SUM = (r + 1) * DELTA` in encryption and
`SUM = (q - r) * DELTA` in decryption. -/
def Obligations.SequencerRunsOnSchedule : Prop :=
  ∀ (s : State) (r k : Nat), 2 ≤ s.wlen.toNat → r < rounds s.wlen.toNat → k < s.wlen.toNat →
    (let t := encStep^[r * s.wlen.toNat + k] (encInit s)
     t.p = k ∧ t.rnd.toNat = rounds s.wlen.toNat - r ∧ (encBegin t).sum = delta * BitVec.ofNat 32 (r + 1)) ∧
    (let t := decStep^[r * s.wlen.toNat + k] (decInit s)
     t.p = s.wlen.toNat - 1 - k ∧ t.rnd.toNat = rounds s.wlen.toNat - r ∧
       t.sum = delta * BitVec.ofNat 32 (rounds s.wlen.toNat - r))

/-- R96: `ENCW` answers `ERR_ARG` when `WLEN > WCAP`; otherwise it succeeds, `WB[0 .. WLEN-1]` is the encryption of the
block by the rule's two nested loops, `SUM` ends at `q * DELTA` if a block was mixed, and nothing else changes but
`STATUS` and the internal registers `RND` and `P` (R101). -/
def Obligations.EncwEncryptsTheBlock : Prop :=
  ∀ s : State,
    (s.wcap < s.wlen.toNat → exec .encw s = .next { s with status := 5 }) ∧
    (s.wlen.toNat ≤ s.wcap → ∃ t, exec .encw s = .next t ∧
      t = { s with status := 1, wb := t.wb, sum := t.sum, rnd := t.rnd, p := t.p } ∧
      t.sum = (if s.wlen.toNat < 2 then s.sum else delta * BitVec.ofNat 32 (rounds s.wlen.toNat)) ∧
      (∀ i, i < s.wlen.toNat → t.readW i = encryptBlock s.key s.wlen.toNat s.readW i) ∧
      (∀ i, s.wlen.toNat ≤ i → t.readW i = s.readW i))

/-- R99: `DECW`, as `ENCW`, with the decryption's two nested loops; `SUM` ends at 0. -/
def Obligations.DecwDecryptsTheBlock : Prop :=
  ∀ s : State,
    (s.wcap < s.wlen.toNat → exec .decw s = .next { s with status := 5 }) ∧
    (s.wlen.toNat ≤ s.wcap → ∃ t, exec .decw s = .next t ∧
      t = { s with status := 1, wb := t.wb, sum := t.sum, rnd := t.rnd, p := t.p } ∧
      t.sum = (if s.wlen.toNat < 2 then s.sum else 0) ∧
      (∀ i, i < s.wlen.toNat → t.readW i = decryptBlock s.key s.wlen.toNat s.readW i) ∧
      (∀ i, s.wlen.toNat ≤ i → t.readW i = s.readW i))

/-- R101: the internal registers after a transform command. -/
def Obligations.InternalRegistersAfterTransform : Prop :=
  ∀ s : State,
    (2 ≤ s.wlen.toNat → s.wlen.toNat ≤ s.wcap →
      (∃ t, exec .encw s = .next t ∧ t.sum = delta * BitVec.ofNat 32 (rounds s.wlen.toNat) ∧ t.rnd = 0 ∧ t.p = 0) ∧
      (∃ t, exec .decw s = .next t ∧ t.sum = 0 ∧ t.rnd = 0 ∧ t.p = s.wlen.toNat - 1)) ∧
    (s.wlen.toNat < 2 ∨ s.wcap < s.wlen.toNat →
      (∃ t, exec .encw s = .next t ∧ t.sum = s.sum ∧ t.rnd = s.rnd ∧ t.p = s.p) ∧
      (∃ t, exec .decw s = .next t ∧ t.sum = s.sum ∧ t.rnd = s.rnd ∧ t.p = s.p))

/-- R103: a block of 0 or 1 words is left as it is, with success. -/
def Obligations.ShortBlocksAreLeftUnchanged : Prop :=
  ∀ s : State, s.wlen.toNat < 2 →
    exec .encw s = .next { s with status := 1 } ∧ exec .decw s = .next { s with status := 1 }

/-- R102: `DECW` after `ENCW` and `ENCW` after `DECW`, with the same `KEY` and `WLEN`, restore the block; each
transform is a bijection on blocks of `m` words. -/
def Obligations.TransformsAreInverse : Prop :=
  (∀ s : State, 2 ≤ s.wlen.toNat → s.wlen.toNat ≤ s.wcap →
    (∃ t u, exec .encw s = .next t ∧ exec .decw t = .next u ∧ t.status = 1 ∧ u.status = 1 ∧
      ∀ i, u.readW i = s.readW i) ∧
    (∃ t u, exec .decw s = .next t ∧ exec .encw t = .next u ∧ t.status = 1 ∧ u.status = 1 ∧
      ∀ i, u.readW i = s.readW i)) ∧
  (∀ (k : KeyRegs) (m : Nat), 2 ≤ m →
    Function.Bijective (onBlock m (encrypt k m)) ∧ Function.Bijective (onBlock m (decrypt k m)))

/-- R106: the result of each transform is a function of `WLEN`, `KEY` and `WB[0 .. WLEN-1]` alone. -/
def Obligations.TransformDependsOnlyOnItsOperands : Prop :=
  ∀ s s' : State, s.wlen = s'.wlen → s.key = s'.key → (∀ i, i < s.wlen.toNat → s.readW i = s'.readW i) →
    s.wlen.toNat ≤ s.wcap → s.wlen.toNat ≤ s'.wcap →
    (∃ t t', exec .encw s = .next t ∧ exec .encw s' = .next t' ∧ t.status = t'.status ∧
      ∀ i, i < s.wlen.toNat → t.readW i = t'.readW i) ∧
    (∃ t t', exec .decw s = .next t ∧ exec .decw s' = .next t' ∧ t.status = t'.status ∧
      ∀ i, i < s.wlen.toNat → t.readW i = t'.readW i)

/-! ## The codec -/

/-- R121, R122: `PACK`. -/
def Obligations.PackPacksLittleEndian : Prop :=
  ∀ s : State,
    (s.blen.toNat = 0 ∨ s.bcap < s.blen.toNat → exec .pack s = .next { s with status := 5 }) ∧
    (1 ≤ s.blen.toNat → s.blen.toNat ≤ s.bcap → ∃ t, exec .pack s = .next t ∧
      t = { s with status := 1, wb := t.wb, wlen := t.wlen } ∧
      t.wlen.toNat = (s.blen.toNat + 3) / 4 ∧
      (∀ j, j < (s.blen.toNat + 3) / 4 → t.readW j = packedWord s.readB s.blen.toNat j) ∧
      (∀ j, (s.blen.toNat + 3) / 4 ≤ j → t.readW j = s.readW j))

/-- R123 (with R121, R124): `PACKL`. -/
def Obligations.PacklAppendsTheLengthWord : Prop :=
  ∀ s : State,
    (s.blen.toNat = 0 ∨ s.bcap - 4 < s.blen.toNat → exec .packl s = .next { s with status := 5 }) ∧
    (1 ≤ s.blen.toNat → s.blen.toNat ≤ s.bcap - 4 → ∃ t, exec .packl s = .next t ∧
      t = { s with status := 1, wb := t.wb, wlen := t.wlen } ∧
      t.wlen.toNat = (s.blen.toNat + 3) / 4 + 1 ∧ 2 ≤ t.wlen.toNat ∧
      (∀ j, j < (s.blen.toNat + 3) / 4 → t.readW j = packedWord s.readB s.blen.toNat j) ∧
      t.readW (t.wlen.toNat - 1) = s.blen ∧
      (∀ j, t.wlen.toNat ≤ j → t.readW j = s.readW j))

/-- R125, R126: `UNPACK`. -/
def Obligations.UnpackUnpacksLittleEndian : Prop :=
  ∀ s : State,
    (s.wlen.toNat = 0 ∨ s.wcap < s.wlen.toNat → exec .unpack s = .next { s with status := 5 }) ∧
    (1 ≤ s.wlen.toNat → s.wlen.toNat ≤ s.wcap → ∃ t, exec .unpack s = .next t ∧
      t = { s with status := 1, bb := t.bb, blen := t.blen } ∧ t.blen.toNat = 4 * s.wlen.toNat ∧
      (∀ i, i < 4 * s.wlen.toNat → t.readB i = Rules.unpackedByte s.readW i) ∧
      (∀ i, 4 * s.wlen.toNat ≤ i → t.readB i = s.readB i))

/-- R127: `UNPACKL`: `ERR_ARG`, `ERR_LENGTH` or the `L` bytes. -/
def Obligations.UnpacklChecksThenUnpacks : Prop :=
  ∀ s : State,
    (s.wlen.toNat = 0 ∨ s.wcap < s.wlen.toNat → exec .unpackl s = .next { s with status := 5 }) ∧
    (1 ≤ s.wlen.toNat → s.wlen.toNat ≤ s.wcap → ¬ lengthAccepted s.wlen.toNat (lastWord s) →
      exec .unpackl s = .next { s with status := 7, blen := 0 }) ∧
    (1 ≤ s.wlen.toNat → s.wlen.toNat ≤ s.wcap → lengthAccepted s.wlen.toNat (lastWord s) →
      ∃ t, exec .unpackl s = .next t ∧ t = { s with status := 1, bb := t.bb, blen := t.blen } ∧
        t.blen.toNat = lastWord s ∧
        (∀ i, i < lastWord s → t.readB i = Rules.unpackedByte s.readW i) ∧
        (∀ i, lastWord s ≤ i → t.readB i = s.readB i))

/-- R128: `UNPACKL` accepts exactly the lengths `PACKL` could have embedded in a block of that word count, and 0 in a
block of one word; at most 3 bytes are then padding. -/
def Obligations.RangeTestAcceptsExactlyPackableLengths : Prop :=
  ∀ s : State, 1 ≤ s.wlen.toNat → s.wlen.toNat ≤ s.wcap →
    ∃ t, exec .unpackl s = .next t ∧
      (t.status = 1 ↔ (∃ len, 1 ≤ len ∧ (len + 3) / 4 + 1 = s.wlen.toNat ∧ lastWord s = len) ∨
        (s.wlen.toNat = 1 ∧ lastWord s = 0)) ∧
      (t.status = 1 → lastWord s ≤ 4 * (s.wlen.toNat - 1) ∧ 4 * (s.wlen.toNat - 1) - lastWord s ≤ 3)

/-- R129: the three round trips of the codec; what the target buffer and its length register hold in between does not
matter. -/
def Obligations.CodecRoundTrips : Prop :=
  (∀ (s : State) (bb' : List Host.Cell) (blen' : Word), 1 ≤ s.blen.toNat → s.blen.toNat ≤ s.bcap - 4 →
    ∃ t u, exec .packl s = .next t ∧ exec .unpackl { t with bb := bb', blen := blen' } = .next u ∧
      u.status = 1 ∧ u.blen = s.blen ∧ ∀ i, i < s.blen.toNat → u.readB i = s.readB i) ∧
  (∀ (s : State) (bb' : List Host.Cell) (blen' : Word), 1 ≤ s.blen.toNat → s.blen.toNat ≤ s.bcap →
    ∃ t u, exec .pack s = .next t ∧ exec .unpack { t with bb := bb', blen := blen' } = .next u ∧
      u.status = 1 ∧ u.blen.toNat = 4 * ((s.blen.toNat + 3) / 4) ∧
      (∀ i, i < s.blen.toNat → u.readB i = s.readB i) ∧
      (∀ i, s.blen.toNat ≤ i → i < u.blen.toNat → u.readB i = 0)) ∧
  (∀ (s : State) (wb' : List (Nat × Word)) (wlen' : Word), 1 ≤ s.wlen.toNat → s.wlen.toNat ≤ s.wcap →
    ∃ t u, exec .unpack s = .next t ∧ exec .pack { t with wb := wb', wlen := wlen' } = .next u ∧
      u.status = 1 ∧ u.wlen = s.wlen ∧ ∀ j, j < s.wlen.toNat → u.readW j = s.readW j)

/-- R131: two blocks of the same accepted length whose first `L` bytes agree unpack alike, whatever their pad bytes. -/
def Obligations.PadBytesAreNotLookedAt : Prop :=
  ∀ s s' : State, s.wlen = s'.wlen → 1 ≤ s.wlen.toNat → s.wlen.toNat ≤ s.wcap → s.wlen.toNat ≤ s'.wcap →
    lastWord s = lastWord s' → lengthAccepted s.wlen.toNat (lastWord s) →
    (∀ i, i < lastWord s → Rules.unpackedByte s.readW i = Rules.unpackedByte s'.readW i) →
    ∃ t t', exec .unpackl s = .next t ∧ exec .unpackl s' = .next t' ∧ t.status = 1 ∧ t'.status = 1 ∧
      t.blen = t'.blen ∧ ∀ i, i < t.blen.toNat → t.readB i = t'.readB i

/-- R130: `PACKL`, the transform and `UNPACK` give `4 * (ceil(len / 4) + 1)` bytes, a multiple of 4, 4 to 7 more than
the data and at least 8. -/
def Obligations.CiphertextLengthIsFixedByDataLength : Prop :=
  ∀ s : State, 1 ≤ s.blen.toNat → s.blen.toNat ≤ s.bcap - 4 →
    ∃ a b c, exec .packl s = .next a ∧ exec .encw a = .next b ∧ exec .unpack b = .next c ∧
      c.blen.toNat = 4 * ((s.blen.toNat + 3) / 4 + 1) ∧ c.blen.toNat % 4 = 0 ∧
      s.blen.toNat + 4 ≤ c.blen.toNat ∧ c.blen.toNat ≤ s.blen.toNat + 7 ∧ 8 ≤ c.blen.toNat

/-! ## The key load -/

/-- R140, R141: `LDKEY` loads the packing of the first 16 key bytes, zero-extended to 16. -/
def Obligations.LdkeyLoadsTheNormalisedKey : Prop :=
  ∀ s : State,
    (s.blen.toNat = 0 ∨ s.bcap < s.blen.toNat → exec .ldkey s = .next { s with status := 5 }) ∧
    (1 ≤ s.blen.toNat → s.blen.toNat ≤ s.bcap → exec .ldkey s = .next { s with
      status := 1
      key := ⟨keyWord s.readB s.blen.toNat 0, keyWord s.readB s.blen.toNat 1, keyWord s.readB s.blen.toNat 2,
        keyWord s.readB s.blen.toNat 3⟩ })

/-- R142: a short key and its zero-padding to 16 bytes load the same `KEY`; so do a long key and its first 16 bytes. -/
def Obligations.PaddedAndTruncatedKeysLoadAlike : Prop :=
  (∀ s s' : State, 1 ≤ s.blen.toNat → s.blen.toNat < 16 → s.blen.toNat ≤ s.bcap →
    s'.blen = 16 → 16 ≤ s'.bcap → (∀ i, i < s.blen.toNat → s'.readB i = s.readB i) →
    (∀ i, s.blen.toNat ≤ i → i < 16 → s'.readB i = 0) →
    ∃ t t', exec .ldkey s = .next t ∧ exec .ldkey s' = .next t' ∧ t.status = 1 ∧ t'.status = 1 ∧ t.key = t'.key) ∧
  (∀ s s' : State, 16 < s.blen.toNat → s.blen.toNat ≤ s.bcap → s'.blen = 16 → 16 ≤ s'.bcap →
    (∀ i, i < 16 → s'.readB i = s.readB i) →
    ∃ t t', exec .ldkey s = .next t ∧ exec .ldkey s' = .next t' ∧ t.status = 1 ∧ t'.status = 1 ∧ t.key = t'.key)

/-- R143: four register writes load the key that `LDKEY` loads from its 16 bytes, least significant byte of each word
first. -/
def Obligations.DirectKeyWritesEqualLdkey : Prop :=
  (∀ (s : State) (k : KeyRegs), Host.Core.run Sys2Proof.core 4 { s with pending :=
      [.access (.write (s.params.base + 0x10) 32 k.k0), .access (.write (s.params.base + 0x14) 32 k.k1),
       .access (.write (s.params.base + 0x18) 32 k.k2), .access (.write (s.params.base + 0x1C) 32 k.k3)] } =
      .next { s with pending := [], response := none, key := k }) ∧
  (∀ (s : State) (k : KeyRegs), s.blen = 16 → 16 ≤ s.bcap →
    (∀ i, i < 16 → s.readB i = Rules.unpackedByte (fun j => [k.k0, k.k1, k.k2, k.k3].getD j 0) i) →
    exec .ldkey s = .next { s with status := 1, key := k })

/-! ## The composed operations -/

/-- R150: once its own check passes, `ENC` ends in the very state `PACKL`, `ENCW`, `UNPACK` issued one by one end in,
and `DEC` in that of `PACK`, `DECW`, `UNPACKL`, error or not. -/
def Obligations.ComposedCommandsAreTheirThreeStages : Prop :=
  (∀ s : State, 1 ≤ s.blen.toNat → s.blen.toNat ≤ s.bcap - 4 →
    ∃ a b c, exec .packl s = .next a ∧ exec .encw a = .next b ∧ exec .unpack b = .next c ∧
      a.status = 1 ∧ b.status = 1 ∧ c.status = 1 ∧ exec .enc s = .next c) ∧
  (∀ s : State, 1 ≤ s.blen.toNat → s.blen.toNat ≤ s.bcap →
    ∃ a b c, exec .pack s = .next a ∧ exec .decw a = .next b ∧ exec .unpackl b = .next c ∧
      a.status = 1 ∧ b.status = 1 ∧ exec .dec s = .next c)

/-- R151: `ENC`'s end state. -/
def Obligations.EncEncryptsTheByteBuffer : Prop :=
  ∀ s : State,
    (s.blen.toNat = 0 ∨ s.bcap - 4 < s.blen.toNat → exec .enc s = .next { s with status := 5 }) ∧
    (1 ≤ s.blen.toNat → s.blen.toNat ≤ s.bcap - 4 → ∃ t, exec .enc s = .next t ∧
      t = { s with status := 1, blen := t.blen, wlen := t.wlen, bb := t.bb, wb := t.wb, sum := t.sum,
                   rnd := t.rnd, p := t.p } ∧
      t.wlen.toNat = (s.blen.toNat + 3) / 4 + 1 ∧ t.blen.toNat = 4 * ((s.blen.toNat + 3) / 4 + 1) ∧
      (∀ j, j < t.wlen.toNat → t.readW j = encWords s j) ∧ (∀ j, t.wlen.toNat ≤ j → t.readW j = s.readW j) ∧
      (∀ i, i < t.blen.toNat → t.readB i = Rules.unpackedByte (encWords s) i) ∧
      (∀ i, t.blen.toNat ≤ i → t.readB i = s.readB i))

/-- R152: `DEC`'s three outcomes. -/
def Obligations.DecDecryptsTheByteBuffer : Prop :=
  ∀ s : State,
    (s.blen.toNat = 0 ∨ s.bcap < s.blen.toNat → exec .dec s = .next { s with status := 5 }) ∧
    (1 ≤ s.blen.toNat → s.blen.toNat ≤ s.bcap → ∃ t, exec .dec s = .next t ∧
      t = { s with status := t.status, blen := t.blen, wlen := t.wlen, bb := t.bb, wb := t.wb, sum := t.sum,
                   rnd := t.rnd, p := t.p } ∧
      t.wlen.toNat = (s.blen.toNat + 3) / 4 ∧
      (∀ j, j < t.wlen.toNat → t.readW j = decWords s j) ∧ (∀ j, t.wlen.toNat ≤ j → t.readW j = s.readW j) ∧
      (¬ lengthAccepted ((s.blen.toNat + 3) / 4) (decLength s) → t.status = 7 ∧ t.blen = 0 ∧ t.bb = s.bb) ∧
      (lengthAccepted ((s.blen.toNat + 3) / 4) (decLength s) → t.status = 1 ∧ t.blen.toNat = decLength s ∧
        (∀ i, i < decLength s → t.readB i = Rules.unpackedByte (decWords s) i) ∧
        (∀ i, decLength s ≤ i → t.readB i = s.readB i)))

/-- R153: `ENC` then `DEC` with the same `KEY` restores the bytes and their count, for every accepted length and every
key. -/
def Obligations.EncThenDecRestoresTheBytes : Prop :=
  ∀ s : State, 1 ≤ s.blen.toNat → s.blen.toNat ≤ s.bcap - 4 →
    ∃ t u, exec .enc s = .next t ∧ exec .dec t = .next u ∧ u.status = 1 ∧ u.blen = s.blen ∧
      ∀ i, i < s.blen.toNat → u.readB i = s.readB i

/-- R157: the ciphertext depends on the data and the key alone: nothing else in the state, and nothing an earlier
command left, reaches it. -/
def Obligations.CiphertextDependsOnlyOnDataAndKey : Prop :=
  ∀ s s' : State, s.blen = s'.blen → s.key = s'.key → (∀ i, i < s.blen.toNat → s.readB i = s'.readB i) →
    1 ≤ s.blen.toNat → s.blen.toNat ≤ s.bcap - 4 → s.blen.toNat ≤ s'.bcap - 4 →
    ∃ t t', exec .enc s = .next t ∧ exec .enc s' = .next t' ∧ t.status = 1 ∧ t'.status = 1 ∧ t.blen = t'.blen ∧
      ∀ i, i < t.blen.toNat → t.readB i = t'.readB i

/-! ## Frames -/

/-- R21 to R24, R29, R34: which registers a command may write, whatever its outcome; every other keeps its value. The
parameters and the model's own fields (log entries 1, 2, 3, 5) are never touched by a command. -/
def Obligations.CommandsLeaveOtherRegistersAlone : Prop :=
  ∀ (i : Instr) (s t : State), exec i s = .next t →
    (i ≠ .ldkey → t.key = s.key) ∧
    (i ∉ [Instr.unpack, .unpackl, .enc, .dec] → t.blen = s.blen) ∧
    (i ∉ [Instr.pack, .packl, .enc, .dec] → t.wlen = s.wlen) ∧
    (i ∉ [Instr.encw, .decw, .enc, .dec] → t.sum = s.sum ∧ t.rnd = s.rnd ∧ t.p = s.p) ∧
    t.params = s.params ∧ t.gen = s.gen ∧ t.pending = s.pending ∧ t.response = s.response

/-- R28, R34: a command changes no cell of BB at or above the count of cells it stores, and none at all when it stores
none. -/
def Obligations.CommandsLeaveOtherBytesAlone : Prop :=
  ∀ (i : Instr) (s t : State), exec i s = .next t → ∀ a, bytesStored i s ≤ a → t.readB a = s.readB a

/-- R28, R34: a command changes no cell of WB at or above the count of cells it stores, and none at all when it stores
none. -/
def Obligations.CommandsLeaveOtherWordsAlone : Prop :=
  ∀ (i : Instr) (s t : State), exec i s = .next t → ∀ a, wordsStored i s ≤ a → t.readW a = s.readW a

/-- R13, R28: a read after a write of the same cell gives the value written; every other cell of that buffer and the
whole other buffer keep their values. -/
def Obligations.BufferWriteReachesOneCell : Prop :=
  ∀ (s : State) (i j : Nat) (b : Byte) (w : Word),
    (s.writeB i b).readB j = (if j = i then b else s.readB j) ∧ (s.writeB i b).readW j = s.readW j ∧
    (s.writeW i w).readW j = (if j = i then w else s.readW j) ∧ (s.writeW i w).readB j = s.readB j

/-! ## Invariants -/

/-- R25, R28, R31, R33, R66: every step keeps both buffers canonical and within their capacities, `STATUS` one of its
five values, no round left to run and `P` a position of the word buffer. -/
def Obligations.EveryStepKeepsTheEngineSound : Prop :=
  ∀ s s' : State, s.Inv → step s = .next s' → s'.Inv

/-- The state after reset is sound. -/
def Obligations.ResetStateIsSound : Prop := State.reset.Inv

/-- R7, R36: no step changes `WCAP` or `BASE`; only a reset begins a new generation of unspecified cells (log
entry 3). -/
def Obligations.ParametersNeverChange : Prop :=
  ∀ s t : State, step s = .next t → t.params = s.params ∧
    (t.gen = s.gen ∨ (t.gen = s.gen + 1 ∧ ∃ rest, s.pending = .reset :: rest))
end

