-- ==== Sys2Proof/Laws/State.lean ====
section
/-! SUPPORT. One lemma per field per update of the state, true by `rfl`, and the same for the derived readings
(the counts, the capacities and the buffer cells), so that no proof unfolds a record update. -/

namespace Sys2Proof.Machine.State

variable (s : State)

@[simp] theorem setStatus_params (v : Word) : (s.setStatus v).params = s.params := rfl
@[simp] theorem setStatus_status (v : Word) : (s.setStatus v).status = v := rfl
@[simp] theorem setStatus_blen (v : Word) : (s.setStatus v).blen = s.blen := rfl
@[simp] theorem setStatus_wlen (v : Word) : (s.setStatus v).wlen = s.wlen := rfl
@[simp] theorem setStatus_key (v : Word) : (s.setStatus v).key = s.key := rfl
@[simp] theorem setStatus_bb (v : Word) : (s.setStatus v).bb = s.bb := rfl
@[simp] theorem setStatus_wb (v : Word) : (s.setStatus v).wb = s.wb := rfl
@[simp] theorem setStatus_sum (v : Word) : (s.setStatus v).sum = s.sum := rfl
@[simp] theorem setStatus_rnd (v : Word) : (s.setStatus v).rnd = s.rnd := rfl
@[simp] theorem setStatus_p (v : Word) : (s.setStatus v).p = s.p := rfl
@[simp] theorem setStatus_gen (v : Word) : (s.setStatus v).gen = s.gen := rfl
@[simp] theorem setStatus_pending (v : Word) : (s.setStatus v).pending = s.pending := rfl
@[simp] theorem setStatus_response (v : Word) : (s.setStatus v).response = s.response := rfl
@[simp] theorem setStatus_wcap (v : Word) : (s.setStatus v).wcap = s.wcap := rfl
@[simp] theorem setStatus_bcap (v : Word) : (s.setStatus v).bcap = s.bcap := rfl
@[simp] theorem setStatus_byteCount (v : Word) : (s.setStatus v).byteCount = s.byteCount := rfl
@[simp] theorem setStatus_wordCount (v : Word) : (s.setStatus v).wordCount = s.wordCount := rfl
@[simp] theorem setStatus_readB (v : Word) (j : Nat) : (s.setStatus v).readB j = s.readB j := rfl
@[simp] theorem setStatus_readW (v : Word) (j : Nat) : (s.setStatus v).readW j = s.readW j := rfl

@[simp] theorem setBlen_params (v : Word) : (s.setBlen v).params = s.params := rfl
@[simp] theorem setBlen_status (v : Word) : (s.setBlen v).status = s.status := rfl
@[simp] theorem setBlen_blen (v : Word) : (s.setBlen v).blen = v := rfl
@[simp] theorem setBlen_wlen (v : Word) : (s.setBlen v).wlen = s.wlen := rfl
@[simp] theorem setBlen_key (v : Word) : (s.setBlen v).key = s.key := rfl
@[simp] theorem setBlen_bb (v : Word) : (s.setBlen v).bb = s.bb := rfl
@[simp] theorem setBlen_wb (v : Word) : (s.setBlen v).wb = s.wb := rfl
@[simp] theorem setBlen_sum (v : Word) : (s.setBlen v).sum = s.sum := rfl
@[simp] theorem setBlen_rnd (v : Word) : (s.setBlen v).rnd = s.rnd := rfl
@[simp] theorem setBlen_p (v : Word) : (s.setBlen v).p = s.p := rfl
@[simp] theorem setBlen_gen (v : Word) : (s.setBlen v).gen = s.gen := rfl
@[simp] theorem setBlen_pending (v : Word) : (s.setBlen v).pending = s.pending := rfl
@[simp] theorem setBlen_response (v : Word) : (s.setBlen v).response = s.response := rfl
@[simp] theorem setBlen_wcap (v : Word) : (s.setBlen v).wcap = s.wcap := rfl
@[simp] theorem setBlen_bcap (v : Word) : (s.setBlen v).bcap = s.bcap := rfl
@[simp] theorem setBlen_wordCount (v : Word) : (s.setBlen v).wordCount = s.wordCount := rfl
@[simp] theorem setBlen_readB (v : Word) (j : Nat) : (s.setBlen v).readB j = s.readB j := rfl
@[simp] theorem setBlen_readW (v : Word) (j : Nat) : (s.setBlen v).readW j = s.readW j := rfl

@[simp] theorem setWlen_params (v : Word) : (s.setWlen v).params = s.params := rfl
@[simp] theorem setWlen_status (v : Word) : (s.setWlen v).status = s.status := rfl
@[simp] theorem setWlen_blen (v : Word) : (s.setWlen v).blen = s.blen := rfl
@[simp] theorem setWlen_wlen (v : Word) : (s.setWlen v).wlen = v := rfl
@[simp] theorem setWlen_key (v : Word) : (s.setWlen v).key = s.key := rfl
@[simp] theorem setWlen_bb (v : Word) : (s.setWlen v).bb = s.bb := rfl
@[simp] theorem setWlen_wb (v : Word) : (s.setWlen v).wb = s.wb := rfl
@[simp] theorem setWlen_sum (v : Word) : (s.setWlen v).sum = s.sum := rfl
@[simp] theorem setWlen_rnd (v : Word) : (s.setWlen v).rnd = s.rnd := rfl
@[simp] theorem setWlen_p (v : Word) : (s.setWlen v).p = s.p := rfl
@[simp] theorem setWlen_gen (v : Word) : (s.setWlen v).gen = s.gen := rfl
@[simp] theorem setWlen_pending (v : Word) : (s.setWlen v).pending = s.pending := rfl
@[simp] theorem setWlen_response (v : Word) : (s.setWlen v).response = s.response := rfl
@[simp] theorem setWlen_wcap (v : Word) : (s.setWlen v).wcap = s.wcap := rfl
@[simp] theorem setWlen_bcap (v : Word) : (s.setWlen v).bcap = s.bcap := rfl
@[simp] theorem setWlen_byteCount (v : Word) : (s.setWlen v).byteCount = s.byteCount := rfl
@[simp] theorem setWlen_readB (v : Word) (j : Nat) : (s.setWlen v).readB j = s.readB j := rfl
@[simp] theorem setWlen_readW (v : Word) (j : Nat) : (s.setWlen v).readW j = s.readW j := rfl

@[simp] theorem setKey_params (v : KeyRegs) : (s.setKey v).params = s.params := rfl
@[simp] theorem setKey_status (v : KeyRegs) : (s.setKey v).status = s.status := rfl
@[simp] theorem setKey_blen (v : KeyRegs) : (s.setKey v).blen = s.blen := rfl
@[simp] theorem setKey_wlen (v : KeyRegs) : (s.setKey v).wlen = s.wlen := rfl
@[simp] theorem setKey_key (v : KeyRegs) : (s.setKey v).key = v := rfl
@[simp] theorem setKey_bb (v : KeyRegs) : (s.setKey v).bb = s.bb := rfl
@[simp] theorem setKey_wb (v : KeyRegs) : (s.setKey v).wb = s.wb := rfl
@[simp] theorem setKey_sum (v : KeyRegs) : (s.setKey v).sum = s.sum := rfl
@[simp] theorem setKey_rnd (v : KeyRegs) : (s.setKey v).rnd = s.rnd := rfl
@[simp] theorem setKey_p (v : KeyRegs) : (s.setKey v).p = s.p := rfl
@[simp] theorem setKey_gen (v : KeyRegs) : (s.setKey v).gen = s.gen := rfl
@[simp] theorem setKey_pending (v : KeyRegs) : (s.setKey v).pending = s.pending := rfl
@[simp] theorem setKey_response (v : KeyRegs) : (s.setKey v).response = s.response := rfl
@[simp] theorem setKey_wcap (v : KeyRegs) : (s.setKey v).wcap = s.wcap := rfl
@[simp] theorem setKey_bcap (v : KeyRegs) : (s.setKey v).bcap = s.bcap := rfl
@[simp] theorem setKey_byteCount (v : KeyRegs) : (s.setKey v).byteCount = s.byteCount := rfl
@[simp] theorem setKey_wordCount (v : KeyRegs) : (s.setKey v).wordCount = s.wordCount := rfl
@[simp] theorem setKey_readB (v : KeyRegs) (j : Nat) : (s.setKey v).readB j = s.readB j := rfl
@[simp] theorem setKey_readW (v : KeyRegs) (j : Nat) : (s.setKey v).readW j = s.readW j := rfl

@[simp] theorem setSum_params (v : Word) : (s.setSum v).params = s.params := rfl
@[simp] theorem setSum_status (v : Word) : (s.setSum v).status = s.status := rfl
@[simp] theorem setSum_blen (v : Word) : (s.setSum v).blen = s.blen := rfl
@[simp] theorem setSum_wlen (v : Word) : (s.setSum v).wlen = s.wlen := rfl
@[simp] theorem setSum_key (v : Word) : (s.setSum v).key = s.key := rfl
@[simp] theorem setSum_bb (v : Word) : (s.setSum v).bb = s.bb := rfl
@[simp] theorem setSum_wb (v : Word) : (s.setSum v).wb = s.wb := rfl
@[simp] theorem setSum_sum (v : Word) : (s.setSum v).sum = v := rfl
@[simp] theorem setSum_rnd (v : Word) : (s.setSum v).rnd = s.rnd := rfl
@[simp] theorem setSum_p (v : Word) : (s.setSum v).p = s.p := rfl
@[simp] theorem setSum_gen (v : Word) : (s.setSum v).gen = s.gen := rfl
@[simp] theorem setSum_pending (v : Word) : (s.setSum v).pending = s.pending := rfl
@[simp] theorem setSum_response (v : Word) : (s.setSum v).response = s.response := rfl
@[simp] theorem setSum_wcap (v : Word) : (s.setSum v).wcap = s.wcap := rfl
@[simp] theorem setSum_bcap (v : Word) : (s.setSum v).bcap = s.bcap := rfl
@[simp] theorem setSum_byteCount (v : Word) : (s.setSum v).byteCount = s.byteCount := rfl
@[simp] theorem setSum_wordCount (v : Word) : (s.setSum v).wordCount = s.wordCount := rfl
@[simp] theorem setSum_readB (v : Word) (j : Nat) : (s.setSum v).readB j = s.readB j := rfl
@[simp] theorem setSum_readW (v : Word) (j : Nat) : (s.setSum v).readW j = s.readW j := rfl

@[simp] theorem setRnd_params (v : BitVec 6) : (s.setRnd v).params = s.params := rfl
@[simp] theorem setRnd_status (v : BitVec 6) : (s.setRnd v).status = s.status := rfl
@[simp] theorem setRnd_blen (v : BitVec 6) : (s.setRnd v).blen = s.blen := rfl
@[simp] theorem setRnd_wlen (v : BitVec 6) : (s.setRnd v).wlen = s.wlen := rfl
@[simp] theorem setRnd_key (v : BitVec 6) : (s.setRnd v).key = s.key := rfl
@[simp] theorem setRnd_bb (v : BitVec 6) : (s.setRnd v).bb = s.bb := rfl
@[simp] theorem setRnd_wb (v : BitVec 6) : (s.setRnd v).wb = s.wb := rfl
@[simp] theorem setRnd_sum (v : BitVec 6) : (s.setRnd v).sum = s.sum := rfl
@[simp] theorem setRnd_rnd (v : BitVec 6) : (s.setRnd v).rnd = v := rfl
@[simp] theorem setRnd_p (v : BitVec 6) : (s.setRnd v).p = s.p := rfl
@[simp] theorem setRnd_gen (v : BitVec 6) : (s.setRnd v).gen = s.gen := rfl
@[simp] theorem setRnd_pending (v : BitVec 6) : (s.setRnd v).pending = s.pending := rfl
@[simp] theorem setRnd_response (v : BitVec 6) : (s.setRnd v).response = s.response := rfl
@[simp] theorem setRnd_wcap (v : BitVec 6) : (s.setRnd v).wcap = s.wcap := rfl
@[simp] theorem setRnd_bcap (v : BitVec 6) : (s.setRnd v).bcap = s.bcap := rfl
@[simp] theorem setRnd_byteCount (v : BitVec 6) : (s.setRnd v).byteCount = s.byteCount := rfl
@[simp] theorem setRnd_wordCount (v : BitVec 6) : (s.setRnd v).wordCount = s.wordCount := rfl
@[simp] theorem setRnd_readB (v : BitVec 6) (j : Nat) : (s.setRnd v).readB j = s.readB j := rfl
@[simp] theorem setRnd_readW (v : BitVec 6) (j : Nat) : (s.setRnd v).readW j = s.readW j := rfl

@[simp] theorem setP_params (v : Nat) : (s.setP v).params = s.params := rfl
@[simp] theorem setP_status (v : Nat) : (s.setP v).status = s.status := rfl
@[simp] theorem setP_blen (v : Nat) : (s.setP v).blen = s.blen := rfl
@[simp] theorem setP_wlen (v : Nat) : (s.setP v).wlen = s.wlen := rfl
@[simp] theorem setP_key (v : Nat) : (s.setP v).key = s.key := rfl
@[simp] theorem setP_bb (v : Nat) : (s.setP v).bb = s.bb := rfl
@[simp] theorem setP_wb (v : Nat) : (s.setP v).wb = s.wb := rfl
@[simp] theorem setP_sum (v : Nat) : (s.setP v).sum = s.sum := rfl
@[simp] theorem setP_rnd (v : Nat) : (s.setP v).rnd = s.rnd := rfl
@[simp] theorem setP_p (v : Nat) : (s.setP v).p = v := rfl
@[simp] theorem setP_gen (v : Nat) : (s.setP v).gen = s.gen := rfl
@[simp] theorem setP_pending (v : Nat) : (s.setP v).pending = s.pending := rfl
@[simp] theorem setP_response (v : Nat) : (s.setP v).response = s.response := rfl
@[simp] theorem setP_wcap (v : Nat) : (s.setP v).wcap = s.wcap := rfl
@[simp] theorem setP_bcap (v : Nat) : (s.setP v).bcap = s.bcap := rfl
@[simp] theorem setP_byteCount (v : Nat) : (s.setP v).byteCount = s.byteCount := rfl
@[simp] theorem setP_wordCount (v : Nat) : (s.setP v).wordCount = s.wordCount := rfl
@[simp] theorem setP_readB (v : Nat) (j : Nat) : (s.setP v).readB j = s.readB j := rfl
@[simp] theorem setP_readW (v : Nat) (j : Nat) : (s.setP v).readW j = s.readW j := rfl

@[simp] theorem setPending_params (v : List HostEvent) : (s.setPending v).params = s.params := rfl
@[simp] theorem setPending_status (v : List HostEvent) : (s.setPending v).status = s.status := rfl
@[simp] theorem setPending_blen (v : List HostEvent) : (s.setPending v).blen = s.blen := rfl
@[simp] theorem setPending_wlen (v : List HostEvent) : (s.setPending v).wlen = s.wlen := rfl
@[simp] theorem setPending_key (v : List HostEvent) : (s.setPending v).key = s.key := rfl
@[simp] theorem setPending_bb (v : List HostEvent) : (s.setPending v).bb = s.bb := rfl
@[simp] theorem setPending_wb (v : List HostEvent) : (s.setPending v).wb = s.wb := rfl
@[simp] theorem setPending_sum (v : List HostEvent) : (s.setPending v).sum = s.sum := rfl
@[simp] theorem setPending_rnd (v : List HostEvent) : (s.setPending v).rnd = s.rnd := rfl
@[simp] theorem setPending_p (v : List HostEvent) : (s.setPending v).p = s.p := rfl
@[simp] theorem setPending_gen (v : List HostEvent) : (s.setPending v).gen = s.gen := rfl
@[simp] theorem setPending_pending (v : List HostEvent) : (s.setPending v).pending = v := rfl
@[simp] theorem setPending_response (v : List HostEvent) : (s.setPending v).response = s.response := rfl
@[simp] theorem setPending_wcap (v : List HostEvent) : (s.setPending v).wcap = s.wcap := rfl
@[simp] theorem setPending_bcap (v : List HostEvent) : (s.setPending v).bcap = s.bcap := rfl
@[simp] theorem setPending_byteCount (v : List HostEvent) : (s.setPending v).byteCount = s.byteCount := rfl
@[simp] theorem setPending_wordCount (v : List HostEvent) : (s.setPending v).wordCount = s.wordCount := rfl
@[simp] theorem setPending_readB (v : List HostEvent) (j : Nat) : (s.setPending v).readB j = s.readB j := rfl
@[simp] theorem setPending_readW (v : List HostEvent) (j : Nat) : (s.setPending v).readW j = s.readW j := rfl

@[simp] theorem setResponse_params (v : Option ReadData) : (s.setResponse v).params = s.params := rfl
@[simp] theorem setResponse_status (v : Option ReadData) : (s.setResponse v).status = s.status := rfl
@[simp] theorem setResponse_blen (v : Option ReadData) : (s.setResponse v).blen = s.blen := rfl
@[simp] theorem setResponse_wlen (v : Option ReadData) : (s.setResponse v).wlen = s.wlen := rfl
@[simp] theorem setResponse_key (v : Option ReadData) : (s.setResponse v).key = s.key := rfl
@[simp] theorem setResponse_bb (v : Option ReadData) : (s.setResponse v).bb = s.bb := rfl
@[simp] theorem setResponse_wb (v : Option ReadData) : (s.setResponse v).wb = s.wb := rfl
@[simp] theorem setResponse_sum (v : Option ReadData) : (s.setResponse v).sum = s.sum := rfl
@[simp] theorem setResponse_rnd (v : Option ReadData) : (s.setResponse v).rnd = s.rnd := rfl
@[simp] theorem setResponse_p (v : Option ReadData) : (s.setResponse v).p = s.p := rfl
@[simp] theorem setResponse_gen (v : Option ReadData) : (s.setResponse v).gen = s.gen := rfl
@[simp] theorem setResponse_pending (v : Option ReadData) : (s.setResponse v).pending = s.pending := rfl
@[simp] theorem setResponse_response (v : Option ReadData) : (s.setResponse v).response = v := rfl
@[simp] theorem setResponse_wcap (v : Option ReadData) : (s.setResponse v).wcap = s.wcap := rfl
@[simp] theorem setResponse_bcap (v : Option ReadData) : (s.setResponse v).bcap = s.bcap := rfl
@[simp] theorem setResponse_byteCount (v : Option ReadData) : (s.setResponse v).byteCount = s.byteCount := rfl
@[simp] theorem setResponse_wordCount (v : Option ReadData) : (s.setResponse v).wordCount = s.wordCount := rfl
@[simp] theorem setResponse_readB (v : Option ReadData) (j : Nat) : (s.setResponse v).readB j = s.readB j := rfl
@[simp] theorem setResponse_readW (v : Option ReadData) (j : Nat) : (s.setResponse v).readW j = s.readW j := rfl

@[simp] theorem writeB_params (i : Nat) (v : Byte) : (s.writeB i v).params = s.params := rfl
@[simp] theorem writeB_status (i : Nat) (v : Byte) : (s.writeB i v).status = s.status := rfl
@[simp] theorem writeB_blen (i : Nat) (v : Byte) : (s.writeB i v).blen = s.blen := rfl
@[simp] theorem writeB_wlen (i : Nat) (v : Byte) : (s.writeB i v).wlen = s.wlen := rfl
@[simp] theorem writeB_key (i : Nat) (v : Byte) : (s.writeB i v).key = s.key := rfl
@[simp] theorem writeB_bb (i : Nat) (v : Byte) : (s.writeB i v).bb = Memory.set s.bb i v := rfl
@[simp] theorem writeB_wb (i : Nat) (v : Byte) : (s.writeB i v).wb = s.wb := rfl
@[simp] theorem writeB_sum (i : Nat) (v : Byte) : (s.writeB i v).sum = s.sum := rfl
@[simp] theorem writeB_rnd (i : Nat) (v : Byte) : (s.writeB i v).rnd = s.rnd := rfl
@[simp] theorem writeB_p (i : Nat) (v : Byte) : (s.writeB i v).p = s.p := rfl
@[simp] theorem writeB_gen (i : Nat) (v : Byte) : (s.writeB i v).gen = s.gen := rfl
@[simp] theorem writeB_pending (i : Nat) (v : Byte) : (s.writeB i v).pending = s.pending := rfl
@[simp] theorem writeB_response (i : Nat) (v : Byte) : (s.writeB i v).response = s.response := rfl
@[simp] theorem writeB_wcap (i : Nat) (v : Byte) : (s.writeB i v).wcap = s.wcap := rfl
@[simp] theorem writeB_bcap (i : Nat) (v : Byte) : (s.writeB i v).bcap = s.bcap := rfl
@[simp] theorem writeB_byteCount (i : Nat) (v : Byte) : (s.writeB i v).byteCount = s.byteCount := rfl
@[simp] theorem writeB_wordCount (i : Nat) (v : Byte) : (s.writeB i v).wordCount = s.wordCount := rfl
@[simp] theorem writeB_readW (i : Nat) (v : Byte) (j : Nat) : (s.writeB i v).readW j = s.readW j := rfl

@[simp] theorem writeW_params (i : Nat) (v : Word) : (s.writeW i v).params = s.params := rfl
@[simp] theorem writeW_status (i : Nat) (v : Word) : (s.writeW i v).status = s.status := rfl
@[simp] theorem writeW_blen (i : Nat) (v : Word) : (s.writeW i v).blen = s.blen := rfl
@[simp] theorem writeW_wlen (i : Nat) (v : Word) : (s.writeW i v).wlen = s.wlen := rfl
@[simp] theorem writeW_key (i : Nat) (v : Word) : (s.writeW i v).key = s.key := rfl
@[simp] theorem writeW_bb (i : Nat) (v : Word) : (s.writeW i v).bb = s.bb := rfl
@[simp] theorem writeW_wb (i : Nat) (v : Word) : (s.writeW i v).wb = Memory.set s.wb i v := rfl
@[simp] theorem writeW_sum (i : Nat) (v : Word) : (s.writeW i v).sum = s.sum := rfl
@[simp] theorem writeW_rnd (i : Nat) (v : Word) : (s.writeW i v).rnd = s.rnd := rfl
@[simp] theorem writeW_p (i : Nat) (v : Word) : (s.writeW i v).p = s.p := rfl
@[simp] theorem writeW_gen (i : Nat) (v : Word) : (s.writeW i v).gen = s.gen := rfl
@[simp] theorem writeW_pending (i : Nat) (v : Word) : (s.writeW i v).pending = s.pending := rfl
@[simp] theorem writeW_response (i : Nat) (v : Word) : (s.writeW i v).response = s.response := rfl
@[simp] theorem writeW_wcap (i : Nat) (v : Word) : (s.writeW i v).wcap = s.wcap := rfl
@[simp] theorem writeW_bcap (i : Nat) (v : Word) : (s.writeW i v).bcap = s.bcap := rfl
@[simp] theorem writeW_byteCount (i : Nat) (v : Word) : (s.writeW i v).byteCount = s.byteCount := rfl
@[simp] theorem writeW_wordCount (i : Nat) (v : Word) : (s.writeW i v).wordCount = s.wordCount := rfl
@[simp] theorem writeW_readB (i : Nat) (v : Word) (j : Nat) : (s.writeW i v).readB j = s.readB j := rfl

@[simp] theorem succeed_params : (s.succeed).params = s.params := rfl
@[simp] theorem succeed_status : (s.succeed).status = statusWord .ok := rfl
@[simp] theorem succeed_blen : (s.succeed).blen = s.blen := rfl
@[simp] theorem succeed_wlen : (s.succeed).wlen = s.wlen := rfl
@[simp] theorem succeed_key : (s.succeed).key = s.key := rfl
@[simp] theorem succeed_bb : (s.succeed).bb = s.bb := rfl
@[simp] theorem succeed_wb : (s.succeed).wb = s.wb := rfl
@[simp] theorem succeed_sum : (s.succeed).sum = s.sum := rfl
@[simp] theorem succeed_rnd : (s.succeed).rnd = s.rnd := rfl
@[simp] theorem succeed_p : (s.succeed).p = s.p := rfl
@[simp] theorem succeed_gen : (s.succeed).gen = s.gen := rfl
@[simp] theorem succeed_pending : (s.succeed).pending = s.pending := rfl
@[simp] theorem succeed_response : (s.succeed).response = s.response := rfl
@[simp] theorem succeed_wcap : (s.succeed).wcap = s.wcap := rfl
@[simp] theorem succeed_bcap : (s.succeed).bcap = s.bcap := rfl
@[simp] theorem succeed_byteCount : (s.succeed).byteCount = s.byteCount := rfl
@[simp] theorem succeed_wordCount : (s.succeed).wordCount = s.wordCount := rfl
@[simp] theorem succeed_readB (j : Nat) : (s.succeed).readB j = s.readB j := rfl
@[simp] theorem succeed_readW (j : Nat) : (s.succeed).readW j = s.readW j := rfl

@[simp] theorem setBlen_byteCount (v : Word) : (s.setBlen v).byteCount = v.toNat := rfl
@[simp] theorem setWlen_wordCount (v : Word) : (s.setWlen v).wordCount = v.toNat := rfl

/-- `ERR_ARG` writes `STATUS` and nothing else (R162). -/
@[simp] theorem raise_arg : s.raise .arg = s.setStatus (statusWord .arg) := rfl

/-- `ERR_CMD` writes `STATUS` and nothing else (R161). -/
@[simp] theorem raise_cmd : s.raise .cmd = s.setStatus (statusWord .cmd) := rfl

/-- `ERR_LENGTH` writes `BLEN` and `STATUS` (R163). -/
@[simp] theorem raise_length : s.raise .length = (s.setBlen 0).setStatus (statusWord .length) := rfl

end Sys2Proof.Machine.State
end

