-- ==== Sys2Proof/Laws/Memory.lean ====
section
/-! SUPPORT. Buffer laws: a read after a write, and the canonical form every memory operation keeps. -/

namespace Sys2Proof.Machine

variable {α : Type}

namespace Memory

@[simp] theorem get?_nil (i : Nat) : Memory.get? ([] : Memory α) i = none := rfl

/-- A read of the cell just written gives the value written. -/
@[simp] theorem get?_set_same (m : Memory α) (i : Nat) (v : α) : Memory.get? (Memory.set m i v) i = some v := by
  induction m with
  | nil => simp [Memory.set, Memory.get?]
  | cons c m ih =>
    obtain ⟨k, x⟩ := c
    simp only [Memory.set]
    split
    · simp [Memory.get?]
    · split
      · simp [Memory.get?]
      · simp [Memory.get?, *]

/-- A write leaves every other cell alone. -/
theorem get?_set_other (m : Memory α) {i j : Nat} (h : j ≠ i) (v : α) :
    Memory.get? (Memory.set m i v) j = Memory.get? m j := by
  induction m with
  | nil => simp [Memory.set, Memory.get?, h]
  | cons c m ih =>
    obtain ⟨k, x⟩ := c
    simp only [Memory.set]
    split
    · simp [Memory.get?, h]
    · split
      · rename_i hk
        simp [Memory.get?, h, ← hk]
      · simp [Memory.get?, ih]

/-- A bound on the first index, kept by a write above the bound. -/
theorem wf_cons_set {k i : Nat} {x v : α} {m : Memory α} (hk : k < i)
    (h : Memory.wf ((k, x) :: m) = true) (hm : Memory.wf (Memory.set m i v) = true) :
    Memory.wf ((k, x) :: Memory.set m i v) = true := by
  cases m with
  | nil => simp [Memory.set, Memory.wf, hk]
  | cons c m =>
    obtain ⟨k', x'⟩ := c
    simp only [Memory.wf, Bool.and_eq_true, decide_eq_true_eq] at h
    simp only [Memory.set] at hm ⊢
    split at hm <;> rename_i h1
    · simp only [if_pos h1, Memory.wf, Bool.and_eq_true, decide_eq_true_eq] at hm ⊢
      exact ⟨hk, hm⟩
    · split at hm <;> rename_i h2
      · simp only [if_neg h1, if_pos h2]
        cases m with
        | nil => simp [Memory.wf, hk]
        | cons d m => exact by simpa [Memory.wf, hk] using hm
      · simp only [if_neg h1, if_neg h2]
        cases hset : Memory.set m i v with
        | nil => simp [Memory.wf, h.1]
        | cons d l => exact by simpa [Memory.wf, h.1, hset] using hm

/-- A write keeps the canonical form. -/
theorem wf_set {m : Memory α} (i : Nat) (v : α) (h : Memory.wf m = true) :
    Memory.wf (Memory.set m i v) = true := by
  induction m with
  | nil => rfl
  | cons c m ih =>
    obtain ⟨k, x⟩ := c
    have hm : Memory.wf m = true := by
      cases m with
      | nil => rfl
      | cons d m =>
        simp only [Memory.wf, Bool.and_eq_true] at h
        exact h.2
    simp only [Memory.set]
    split <;> rename_i h1
    · simpa [Memory.wf, h1] using h
    · split <;> rename_i h2
      · cases m with
        | nil => rfl
        | cons d m => subst h2; simpa [Memory.wf] using h
      · exact wf_cons_set (by omega) h (ih hm)

/-- A write below the capacity keeps every listed index below it. -/
theorem below_set {cap i : Nat} {m : Memory α} (v : α) (hi : i < cap) (h : Memory.below cap m = true) :
    Memory.below cap (Memory.set m i v) = true := by
  induction m with
  | nil => simp [Memory.set, Memory.below, hi]
  | cons c m ih =>
    obtain ⟨k, x⟩ := c
    simp only [Memory.below, List.all_cons, Bool.and_eq_true, decide_eq_true_eq] at h ih
    simp only [Memory.set]
    split
    · simp only [Memory.below, List.all_cons, Bool.and_eq_true, decide_eq_true_eq]
      exact ⟨hi, h⟩
    · split
      · simp only [Memory.below, List.all_cons, Bool.and_eq_true, decide_eq_true_eq]
        exact ⟨hi, h.2⟩
      · simp only [Memory.below, List.all_cons, Bool.and_eq_true, decide_eq_true_eq]
        exact ⟨h.1, ih h.2⟩

/-- Two canonical buffers that answer every read alike are the same data. -/
theorem eq_of_get? : ∀ {m m' : Memory α}, Memory.wf m = true → Memory.wf m' = true →
    (∀ i, Memory.get? m i = Memory.get? m' i) → m = m' := by
  have tail : ∀ {c : Nat × α} {m : Memory α}, Memory.wf (c :: m) = true →
      Memory.wf m = true ∧ ∀ i ≤ c.1, Memory.get? m i = none := by
    intro c m
    induction m generalizing c with
    | nil => intro _; exact ⟨rfl, fun i _ => rfl⟩
    | cons d m ih =>
      intro h
      simp only [Memory.wf, Bool.and_eq_true, decide_eq_true_eq] at h
      refine ⟨h.2, fun i hi => ?_⟩
      have := (ih h.2).2 i (by omega)
      obtain ⟨k, x⟩ := d
      simp only [Memory.get?] at this ⊢
      rw [if_neg (by simp at h; omega), this]
  intro m
  induction m with
  | nil =>
    intro m' _ _ h
    cases m' with
    | nil => rfl
    | cons c m' => have := h c.1; simp [Memory.get?] at this
  | cons c m ih =>
    intro m' hm hm' h
    cases m' with
    | nil => have := h c.1; simp [Memory.get?] at this
    | cons d m' =>
      obtain ⟨k, x⟩ := c
      obtain ⟨l, y⟩ := d
      have hkl : k = l := by
        by_contra hne
        rcases Nat.lt_or_gt_of_ne hne with hlt | hlt
        · have := h k
          simp [Memory.get?, hne, (tail hm').2 k (by simp; omega)] at this
        · have := h l
          simp [Memory.get?, Ne.symm hne, (tail hm).2 l (by simp; omega)] at this
      subst hkl
      have hxy : x = y := by simpa [Memory.get?] using h k
      subst hxy
      congr 1
      refine ih (tail hm).1 (tail hm').1 fun i => ?_
      by_cases hi : i = k
      · subst hi
        rw [(tail hm).2 i (by simp), (tail hm').2 i (by simp)]
      · simpa [Memory.get?, hi] using h i

end Memory

variable (s : State)

@[simp] theorem State.writeB_readB_same (i : Nat) (v : Byte) : (s.writeB i v).readB i = v := by
  simp [State.readB]

theorem State.writeB_readB_other {i j : Nat} (h : j ≠ i) (v : Byte) : (s.writeB i v).readB j = s.readB j := by
  simp [State.readB, Memory.get?_set_other _ h, State.unwrittenByte]

@[simp] theorem State.writeW_readW_same (i : Nat) (v : Word) : (s.writeW i v).readW i = v := by
  simp [State.readW]

theorem State.writeW_readW_other {i j : Nat} (h : j ≠ i) (v : Word) : (s.writeW i v).readW j = s.readW j := by
  simp [State.readW, Memory.get?_set_other _ h, State.unwrittenWord]

end Sys2Proof.Machine
end

