-- ==== Sys2Proof/Laws/Loop.lean ====
section
/-! SUPPORT. The induction over a counted loop and over repeated steps, packaged once. -/

namespace Sys2Proof.Machine

@[simp] theorem forUp_zero (body : Nat → State → State) (s : State) : forUp 0 body s = s := rfl

@[simp] theorem forUp_succ (n : Nat) (body : Nat → State → State) (s : State) :
    forUp (n + 1) body s = body n (forUp n body s) := rfl

/-- What holds before the loop with count 0 and is carried from count `i` to `i + 1` by the `i`-th pass holds
after the loop with count `n`. -/
theorem forUp_induct {P : Nat → State → Prop} {body : Nat → State → State} {n : Nat} {s : State}
    (start : P 0 s) (pass : ∀ i t, i < n → P i t → P (i + 1) (body i t)) : P n (forUp n body s) := by
  induction n with
  | zero => exact start
  | succ n ih => exact pass n _ (Nat.lt_succ_self n) (ih fun i t hi => pass i t (Nat.lt_succ_of_lt hi))

/-- What every pass keeps, the loop keeps. -/
theorem forUp_keeps {P : State → Prop} {body : Nat → State → State} {n : Nat} {s : State}
    (start : P s) (pass : ∀ i t, i < n → P t → P (body i t)) : P (forUp n body s) :=
  forUp_induct (P := fun _ => P) start pass

/-- What holds with count 0 and is carried by each step holds after `n` steps. -/
theorem iterate_induct {P : Nat → State → Prop} {f : State → State} {n : Nat} {s : State}
    (start : P 0 s) (one : ∀ i t, i < n → P i t → P (i + 1) (f t)) : P n (f^[n] s) := by
  induction n with
  | zero => exact start
  | succ n ih =>
    rw [Function.iterate_succ_apply']
    exact one n _ (Nat.lt_succ_self n) (ih fun i t hi => one i t (Nat.lt_succ_of_lt hi))

/-- A change of state that every pass carries along, the loop carries along. -/
theorem forUp_commute {g : State → State} {body : Nat → State → State} (h : ∀ i t, body i (g t) = g (body i t))
    (n : Nat) (s : State) : forUp n body (g s) = g (forUp n body s) := by
  induction n with
  | zero => rfl
  | succ n ih => rw [forUp_succ, ih, h, forUp_succ]

/-- A change of state that every step carries along, the repeated step carries along. -/
theorem iterate_commute {g f : State → State} (h : ∀ t, f (g t) = g (f t)) (n : Nat) (s : State) :
    f^[n] (g s) = g (f^[n] s) := by
  induction n with
  | zero => rfl
  | succ n ih => rw [Function.iterate_succ_apply', ih, h, Function.iterate_succ_apply']

end Sys2Proof.Machine
end

