-- ==== Sys2Proof/Laws/Transform.lean ====
section
/-! SUPPORT. What one step of each transform does, and what the whole transform does: the step-level form of
40_word_transform R97 and R100 computes the loops of R96 and R99, and the loops are inverse to each other
(R102). -/

namespace Sys2Proof.Rules

open Sys2Proof.Machine

/-- Undoing each pass of a loop in the reverse order undoes the loop. -/
theorem foldl_undo {α : Type} {f g : Nat → α → α} {n : Nat} (h : ∀ i < n, ∀ x, g i (f i x) = x) (x : α) :
    (List.range n).foldl (fun x i => g (n - 1 - i) x) ((List.range n).foldl (fun x i => f i x) x) = x := by
  induction n with
  | zero => rfl
  | succ n ih =>
    have inner : (List.range (n + 1)).foldl (fun x i => f i x) x = f n ((List.range n).foldl (fun x i => f i x) x) := by
      rw [List.range_succ, List.foldl_append]; rfl
    have outer : ∀ y, (List.range (n + 1)).foldl (fun x i => g (n + 1 - 1 - i) x) y =
        (List.range n).foldl (fun x i => g (n - 1 - i) x) (g n y) := fun y => by
      rw [List.range_succ_eq_map, List.foldl_cons, List.foldl_map]
      exact List.foldl_ext _ _ _ fun x i _ => by rw [show n + 1 - 1 - i.succ = n - 1 - i by omega]
    rw [inner, outer, h n (Nat.lt_succ_self n)]
    exact ih fun i hi => h i (Nat.lt_succ_of_lt hi)

/-- The neighbours of a position are never the position itself (R95). -/
theorem neighbours_ne {m p : Nat} (hm : 2 ≤ m) (hp : p < m) : (p + 1) % m ≠ p ∧ (p + m - 1) % m ≠ p := by
  constructor
  · rcases Nat.lt_or_ge (p + 1) m with h | h
    · rw [Nat.mod_eq_of_lt h]; omega
    · rw [show p + 1 = m by omega, Nat.mod_self]; omega
  · rcases Nat.eq_zero_or_pos p with h | h
    · subst h; rw [Nat.mod_eq_of_lt (by omega)]; omega
    · rw [show p + m - 1 = (p - 1) + m by omega, Nat.add_mod_right, Nat.mod_eq_of_lt (by omega)]; omega

@[simp] theorem put_same (w : Block) (p : Nat) (v : Word) : put w p v p = v := by simp [put]

theorem put_other (w : Block) {p i : Nat} (h : i ≠ p) (v : Word) : put w p v i = w i := by simp [put, h]

@[simp] theorem put_put (w : Block) (p : Nat) (u v : Word) : put (put w p u) p v = put w p v := by
  funext i; simp only [put]; split <;> rfl

@[simp] theorem put_self (w : Block) (p : Nat) : put w p (w p) = w := by
  funext i; simp only [put]; split <;> simp_all

/-- One decryption update undoes the encryption update of the same position (R102). -/
theorem decPosition_encPosition {m p : Nat} (k : KeyRegs) (sum : Word) (w : Block) (hm : 2 ≤ m) (hp : p < m) :
    decPosition k m sum (encPosition k m sum w p) p = w := by
  obtain ⟨hy, hz⟩ := neighbours_ne hm hp
  simp only [decPosition, encPosition, put_same, put_other w hy, put_other w hz, put_put,
    BitVec.add_sub_cancel, put_self]

/-- One encryption update undoes the decryption update of the same position (R102). -/
theorem encPosition_decPosition {m p : Nat} (k : KeyRegs) (sum : Word) (w : Block) (hm : 2 ≤ m) (hp : p < m) :
    encPosition k m sum (decPosition k m sum w p) p = w := by
  obtain ⟨hy, hz⟩ := neighbours_ne hm hp
  simp only [decPosition, encPosition, put_same, put_other w hy, put_other w hz, put_put,
    BitVec.sub_add_cancel, put_self]

/-- A decryption round undoes the encryption round of the same `SUM`. -/
theorem decRound_encRound {m : Nat} (k : KeyRegs) (sum : Word) (w : Block) (hm : 2 ≤ m) :
    decRound k m sum (encRound k m sum w) = w :=
  foldl_undo (f := fun p w => encPosition k m sum w p) (g := fun p w => decPosition k m sum w p)
    (fun _ hp w => decPosition_encPosition k sum w hm hp) w

/-- An encryption round undoes the decryption round of the same `SUM`. -/
theorem encRound_decRound {m : Nat} (k : KeyRegs) (sum : Word) (w : Block) (hm : 2 ≤ m) :
    encRound k m sum (decRound k m sum w) = w := by
  have := foldl_undo (n := m) (f := fun i w => decPosition k m sum w (m - 1 - i))
    (g := fun i w => encPosition k m sum w (m - 1 - i))
    (fun i hi w => encPosition_decPosition k sum w hm (by omega)) w
  refine Eq.trans ?_ this
  simp only [encRound, decRound]
  refine List.foldl_ext _ _ _ fun w i hi => ?_
  rw [List.mem_range] at hi
  rw [show m - 1 - (m - 1 - i) = i by omega]

/-- Decryption undoes encryption on every block of at least two words (R102). -/
theorem decrypt_encrypt {m : Nat} (k : KeyRegs) (w : Block) (hm : 2 ≤ m) : decrypt k m (encrypt k m w) = w := by
  have undo := foldl_undo (n := rounds m)
    (f := fun r w => encRound k m (delta * BitVec.ofNat 32 (r + 1)) w)
    (g := fun r w => decRound k m (delta * BitVec.ofNat 32 (r + 1)) w)
    (fun r _ w => decRound_encRound k _ w hm) w
  refine Eq.trans ?_ undo
  refine List.foldl_ext _ _ _ fun w j hj => ?_
  rw [List.mem_range] at hj
  rw [show rounds m - 1 - j + 1 = rounds m - j by omega]

/-- Encryption undoes decryption on every block of at least two words (R102). -/
theorem encrypt_decrypt {m : Nat} (k : KeyRegs) (w : Block) (hm : 2 ≤ m) : encrypt k m (decrypt k m w) = w := by
  have undo := foldl_undo (n := rounds m)
    (f := fun j w => decRound k m (delta * BitVec.ofNat 32 (rounds m - j)) w)
    (g := fun j w => encRound k m (delta * BitVec.ofNat 32 (rounds m - j)) w)
    (fun j _ w => encRound_decRound k _ w hm) w
  refine Eq.trans ?_ undo
  refine List.foldl_ext _ _ _ fun w r hr => ?_
  rw [List.mem_range] at hr
  rw [show rounds m - (rounds m - 1 - r) = r + 1 by omega]

end Sys2Proof.Rules

namespace Sys2Proof.Machine

open Sys2Proof.Rules

/-- The first `r` rounds of an encryption. -/
def encRounds (k : KeyRegs) (m r : Nat) (w : Block) : Block :=
  (List.range r).foldl (fun w r => encRound k m (delta * BitVec.ofNat 32 (r + 1)) w) w

/-- The first `r` rounds of a decryption. -/
def decRounds (k : KeyRegs) (m r : Nat) (w : Block) : Block :=
  (List.range r).foldl (fun w j => decRound k m (delta * BitVec.ofNat 32 (rounds m - j)) w) w

/-- What no transform touches: everything but WB, `SUM`, `RND` and `P` (R34). -/
structure TransformFrame (s t : State) : Prop where
  params   : t.params = s.params
  status   : t.status = s.status
  blen     : t.blen = s.blen
  wlen     : t.wlen = s.wlen
  key      : t.key = s.key
  bb       : t.bb = s.bb
  gen      : t.gen = s.gen
  pending  : t.pending = s.pending
  response : t.response = s.response

theorem TransformFrame.refl (s : State) : TransformFrame s s := ⟨rfl, rfl, rfl, rfl, rfl, rfl, rfl, rfl, rfl⟩

theorem TransformFrame.trans {s t u : State} (a : TransformFrame s t) (b : TransformFrame t u) :
    TransformFrame s u :=
  ⟨b.params.trans a.params, b.status.trans a.status, b.blen.trans a.blen, b.wlen.trans a.wlen,
    b.key.trans a.key, b.bb.trans a.bb, b.gen.trans a.gen, b.pending.trans a.pending,
    b.response.trans a.response⟩

theorem TransformFrame.wordCount {s t : State} (h : TransformFrame s t) : t.wordCount = s.wordCount :=
  congrArg BitVec.toNat h.wlen

theorem TransformFrame.wcap {s t : State} (h : TransformFrame s t) : t.wcap = s.wcap := by
  simp only [State.wcap, h.params]

/-- The frame as one record update. -/
theorem TransformFrame.eq {s t : State} (h : TransformFrame s t) :
    t = { s with wb := t.wb, sum := t.sum, rnd := t.rnd, p := t.p } := by
  obtain ⟨h1, h2, h3, h4, h5, h6, h7, h8, h9⟩ := h
  cases t
  simp_all

/-! The three parts of a step, field by field. -/

@[simp] theorem encBegin_params (s : State) : (encBegin s).params = s.params := by unfold encBegin; split <;> simp
@[simp] theorem encBegin_status (s : State) : (encBegin s).status = s.status := by unfold encBegin; split <;> simp
@[simp] theorem encBegin_blen (s : State) : (encBegin s).blen = s.blen := by unfold encBegin; split <;> simp
@[simp] theorem encBegin_wlen (s : State) : (encBegin s).wlen = s.wlen := by unfold encBegin; split <;> simp
@[simp] theorem encBegin_key (s : State) : (encBegin s).key = s.key := by unfold encBegin; split <;> simp
@[simp] theorem encBegin_bb (s : State) : (encBegin s).bb = s.bb := by unfold encBegin; split <;> simp
@[simp] theorem encBegin_gen (s : State) : (encBegin s).gen = s.gen := by unfold encBegin; split <;> simp
@[simp] theorem encBegin_pending (s : State) : (encBegin s).pending = s.pending := by unfold encBegin; split <;> simp
@[simp] theorem encBegin_response (s : State) : (encBegin s).response = s.response := by unfold encBegin; split <;> simp
@[simp] theorem encBegin_wb (s : State) : (encBegin s).wb = s.wb := by unfold encBegin; split <;> simp
@[simp] theorem encBegin_rnd (s : State) : (encBegin s).rnd = s.rnd := by unfold encBegin; split <;> simp
@[simp] theorem encBegin_p (s : State) : (encBegin s).p = s.p := by unfold encBegin; split <;> simp
@[simp] theorem encBegin_wordCount (s : State) : (encBegin s).wordCount = s.wordCount := by unfold encBegin; split <;> simp
@[simp] theorem encBegin_readW (s : State) : (encBegin s).readW = s.readW := by
  unfold encBegin; split <;> funext j <;> simp

@[simp] theorem encAdvance_params (s : State) : (encAdvance s).params = s.params := by unfold encAdvance; split <;> simp
@[simp] theorem encAdvance_status (s : State) : (encAdvance s).status = s.status := by unfold encAdvance; split <;> simp
@[simp] theorem encAdvance_blen (s : State) : (encAdvance s).blen = s.blen := by unfold encAdvance; split <;> simp
@[simp] theorem encAdvance_wlen (s : State) : (encAdvance s).wlen = s.wlen := by unfold encAdvance; split <;> simp
@[simp] theorem encAdvance_key (s : State) : (encAdvance s).key = s.key := by unfold encAdvance; split <;> simp
@[simp] theorem encAdvance_bb (s : State) : (encAdvance s).bb = s.bb := by unfold encAdvance; split <;> simp
@[simp] theorem encAdvance_gen (s : State) : (encAdvance s).gen = s.gen := by unfold encAdvance; split <;> simp
@[simp] theorem encAdvance_pending (s : State) : (encAdvance s).pending = s.pending := by unfold encAdvance; split <;> simp
@[simp] theorem encAdvance_response (s : State) : (encAdvance s).response = s.response := by unfold encAdvance; split <;> simp
@[simp] theorem encAdvance_wb (s : State) : (encAdvance s).wb = s.wb := by unfold encAdvance; split <;> simp
@[simp] theorem encAdvance_sum (s : State) : (encAdvance s).sum = s.sum := by unfold encAdvance; split <;> simp
@[simp] theorem encAdvance_wordCount (s : State) : (encAdvance s).wordCount = s.wordCount := by unfold encAdvance; split <;> simp
@[simp] theorem encAdvance_readW (s : State) : (encAdvance s).readW = s.readW := by
  unfold encAdvance; split <;> funext j <;> simp

@[simp] theorem decAdvance_params (s : State) : (decAdvance s).params = s.params := by unfold decAdvance; split <;> simp
@[simp] theorem decAdvance_status (s : State) : (decAdvance s).status = s.status := by unfold decAdvance; split <;> simp
@[simp] theorem decAdvance_blen (s : State) : (decAdvance s).blen = s.blen := by unfold decAdvance; split <;> simp
@[simp] theorem decAdvance_wlen (s : State) : (decAdvance s).wlen = s.wlen := by unfold decAdvance; split <;> simp
@[simp] theorem decAdvance_key (s : State) : (decAdvance s).key = s.key := by unfold decAdvance; split <;> simp
@[simp] theorem decAdvance_bb (s : State) : (decAdvance s).bb = s.bb := by unfold decAdvance; split <;> simp
@[simp] theorem decAdvance_gen (s : State) : (decAdvance s).gen = s.gen := by unfold decAdvance; split <;> simp
@[simp] theorem decAdvance_pending (s : State) : (decAdvance s).pending = s.pending := by unfold decAdvance; split <;> simp
@[simp] theorem decAdvance_response (s : State) : (decAdvance s).response = s.response := by unfold decAdvance; split <;> simp
@[simp] theorem decAdvance_wb (s : State) : (decAdvance s).wb = s.wb := by unfold decAdvance; split <;> simp
@[simp] theorem decAdvance_wordCount (s : State) : (decAdvance s).wordCount = s.wordCount := by unfold decAdvance; split <;> simp
@[simp] theorem decAdvance_readW (s : State) : (decAdvance s).readW = s.readW := by
  unfold decAdvance; split <;> funext j <;> simp

theorem encUpdate_eq (s : State) : encUpdate s = s.writeW s.p (s.readW s.p + s.mixHere) := rfl

theorem decUpdate_eq (s : State) : decUpdate s = s.writeW s.p (s.readW s.p - s.mixHere) := rfl

/-- A step of `ENCW` stays in the frame. -/
theorem encStep_frame (s : State) : TransformFrame s (encStep s) := by
  constructor <;> simp [encStep, encUpdate_eq]

/-- A step of `DECW` stays in the frame. -/
theorem decStep_frame (s : State) : TransformFrame s (decStep s) := by
  constructor <;> simp [decStep, decUpdate_eq]

/-- The engine after `r` whole rounds and `k` further positions of the encryption that began in `s` (R97). -/
structure EncAt (s : State) (r k : Nat) (t : State) : Prop where
  frame : TransformFrame s t
  p     : t.p = k
  sum   : t.sum = delta * BitVec.ofNat 32 (if k = 0 then r else r + 1)
  rnd   : t.rnd = BitVec.ofNat 6 (rounds s.wordCount - r)
  words : t.readW = (List.range k).foldl (encPosition s.key s.wordCount (delta * BitVec.ofNat 32 (r + 1)))
            (encRounds s.key s.wordCount r s.readW)
  wf    : Memory.wf s.wb = true → Memory.wf t.wb = true
  below : s.wordCount ≤ s.wcap → Memory.below s.wcap s.wb = true → Memory.below s.wcap t.wb = true

/-- The engine after `r` whole rounds and `k` further positions of the decryption that began in `s` (R100). -/
structure DecAt (s : State) (r k : Nat) (t : State) : Prop where
  frame : TransformFrame s t
  p     : t.p = s.wordCount - 1 - k
  sum   : t.sum = delta * BitVec.ofNat 32 (rounds s.wordCount - r)
  rnd   : t.rnd = BitVec.ofNat 6 (rounds s.wordCount - r)
  words : t.readW = (List.range k).foldl
            (fun w i => decPosition s.key s.wordCount (delta * BitVec.ofNat 32 (rounds s.wordCount - r)) w
              (s.wordCount - 1 - i))
            (decRounds s.key s.wordCount r s.readW)
  wf    : Memory.wf s.wb = true → Memory.wf t.wb = true
  below : s.wordCount ≤ s.wcap → Memory.below s.wcap s.wb = true → Memory.below s.wcap t.wb = true

/-- `RND` counts down by one. -/
theorem ofNat_sub_one {a : Nat} (h : 0 < a) : BitVec.ofNat 6 a - 1 = BitVec.ofNat 6 (a - 1) := by
  obtain ⟨b, rfl⟩ : ∃ b, a = b + 1 := ⟨a - 1, by omega⟩
  simp [BitVec.ofNat_add]

/-- One more multiple of `DELTA`. -/
theorem ofNat_succ_mul (r : Nat) : delta * BitVec.ofNat 32 (r + 1) = delta + delta * BitVec.ofNat 32 r := by
  rw [BitVec.ofNat_add, BitVec.mul_add, BitVec.add_comm]; simp

/-- One multiple of `DELTA` less. -/
theorem ofNat_pred_mul {a : Nat} (h : 0 < a) : delta * BitVec.ofNat 32 a - delta = delta * BitVec.ofNat 32 (a - 1) := by
  obtain ⟨b, rfl⟩ : ∃ b, a = b + 1 := ⟨a - 1, by omega⟩
  rw [ofNat_succ_mul]; simp

/-- A buffer write as a block update. -/
theorem State.writeW_readW (s : State) (i : Nat) (v : Word) : (s.writeW i v).readW = put s.readW i v := by
  funext j
  by_cases h : j = i
  · subst h; simp
  · rw [State.writeW_readW_other s h, put_other _ h]

/-- `ENCW`'s initial registers are those of round 0, position 0 (R97). -/
theorem encInit_at (s : State) : EncAt s 0 0 (encInit s) :=
  { frame := ⟨rfl, rfl, rfl, rfl, rfl, rfl, rfl, rfl, rfl⟩, p := rfl, sum := by simp [encInit],
    rnd := by simp [encInit], words := rfl, wf := id, below := fun _ => id }

/-- `DECW`'s initial registers are those of round 0, position 0 (R100). -/
theorem decInit_at (s : State) : DecAt s 0 0 (decInit s) :=
  { frame := ⟨rfl, rfl, rfl, rfl, rfl, rfl, rfl, rfl, rfl⟩, p := rfl, sum := by simp [decInit],
    rnd := by simp [decInit], words := rfl, wf := id, below := fun _ => id }

/-- `SUM` once the step's round has begun (R97). -/
theorem EncAt.begin_sum {s t : State} {r k : Nat} (h : EncAt s r k t) :
    (encBegin t).sum = delta * BitVec.ofNat 32 (r + 1) := by
  unfold encBegin
  rw [h.p]
  split
  · rename_i h0
    rw [State.setSum_sum, h.sum, if_pos h0, ofNat_succ_mul]
  · rename_i h0
    rw [h.sum, if_neg h0]

/-- The block once the step's position has been updated (R96, R97). -/
theorem EncAt.update_words {s t : State} {r k : Nat} (h : EncAt s r k t) :
    (encUpdate (encBegin t)).readW = (List.range (k + 1)).foldl
      (encPosition s.key s.wordCount (delta * BitVec.ofNat 32 (r + 1))) (encRounds s.key s.wordCount r s.readW) := by
  rw [List.range_succ, List.foldl_append, ← h.words, encUpdate_eq, State.writeW_readW]
  simp only [State.mixHere, State.nextWord, State.prevWord, h.begin_sum, encBegin_p, h.p, encBegin_wordCount,
    h.frame.wordCount, encBegin_key, h.frame.key, encBegin_readW]
  rfl

/-- The block once the step's position has been updated (R99, R100). -/
theorem DecAt.update_words {s t : State} {r k : Nat} (h : DecAt s r k t) :
    (decUpdate t).readW = (List.range (k + 1)).foldl
      (fun w i => decPosition s.key s.wordCount (delta * BitVec.ofNat 32 (rounds s.wordCount - r)) w
        (s.wordCount - 1 - i)) (decRounds s.key s.wordCount r s.readW) := by
  rw [List.range_succ, List.foldl_append, ← h.words, decUpdate_eq, State.writeW_readW]
  simp only [State.mixHere, State.nextWord, State.prevWord, h.sum, h.p, h.frame.wordCount, h.frame.key]
  rfl

/-- A step of `ENCW` keeps the word buffer canonical and within its capacity. -/
theorem EncAt.step_wb {s t : State} {r k : Nat} (h : EncAt s r k t) (hk : k < s.wordCount) :
    (Memory.wf s.wb = true → Memory.wf (encStep t).wb = true) ∧
      (s.wordCount ≤ s.wcap → Memory.below s.wcap s.wb = true → Memory.below s.wcap (encStep t).wb = true) := by
  have hwb : (encStep t).wb = Memory.set t.wb k ((encBegin t).readW k + (encBegin t).mixHere) := by
    simp [encStep, encUpdate_eq, h.p]
  rw [hwb]
  exact ⟨fun hwf => Memory.wf_set _ _ (h.wf hwf), fun hle hb => Memory.below_set _ (by omega) (h.below hle hb)⟩

/-- A step of `DECW` keeps the word buffer canonical and within its capacity. -/
theorem DecAt.step_wb {s t : State} {r k : Nat} (h : DecAt s r k t) (hk : k < s.wordCount) :
    (Memory.wf s.wb = true → Memory.wf (decStep t).wb = true) ∧
      (s.wordCount ≤ s.wcap → Memory.below s.wcap s.wb = true → Memory.below s.wcap (decStep t).wb = true) := by
  have hwb : (decStep t).wb = Memory.set t.wb (s.wordCount - 1 - k) (t.readW (s.wordCount - 1 - k) - t.mixHere) := by
    simp [decStep, decUpdate_eq, h.p]
  rw [hwb]
  exact ⟨fun hwf => Memory.wf_set _ _ (h.wf hwf), fun hle hb => Memory.below_set _ (by omega) (h.below hle hb)⟩

/-- One step of `ENCW` before the last position of a round (R97). -/
theorem encStep_inner {s t : State} {r k : Nat} (h : EncAt s r k t) (hk : k + 1 < s.wordCount) :
    EncAt s r (k + 1) (encStep t) := by
  have hadv : encStep t = (encUpdate (encBegin t)).setP (k + 1) := by
    have hne : ¬ (encUpdate (encBegin t)).p = (encUpdate (encBegin t)).wordCount - 1 := by
      simp only [encUpdate_eq, State.writeW_p, State.writeW_wordCount, encBegin_p, encBegin_wordCount, h.p,
        h.frame.wordCount]
      omega
    rw [encStep, encAdvance, if_neg hne]
    simp [encUpdate_eq, h.p]
  have hwb := h.step_wb (by omega)
  refine ⟨h.frame.trans (encStep_frame t), ?_, ?_, ?_, ?_, hwb.1, hwb.2⟩
  · rw [hadv]; rfl
  · simp [hadv, encUpdate_eq, h.begin_sum]
  · simp [hadv, encUpdate_eq, h.rnd]
  · rw [hadv]; exact h.update_words

/-- The last step of a round of `ENCW` (R33, R97). -/
theorem encStep_last {s t : State} {r k : Nat} (h : EncAt s r k t) (hk : k + 1 = s.wordCount)
    (hr : r < rounds s.wordCount) : EncAt s (r + 1) 0 (encStep t) := by
  have hadv : encStep t = ((encUpdate (encBegin t)).setP 0).setRnd ((encBegin t).rnd - 1) := by
    have heq : (encUpdate (encBegin t)).p = (encUpdate (encBegin t)).wordCount - 1 := by
      simp only [encUpdate_eq, State.writeW_p, State.writeW_wordCount, encBegin_p, encBegin_wordCount, h.p,
        h.frame.wordCount]
      omega
    rw [encStep, encAdvance, if_pos heq]
    simp [encUpdate_eq]
  have hwb := h.step_wb (by omega)
  refine ⟨h.frame.trans (encStep_frame t), ?_, ?_, ?_, ?_, hwb.1, hwb.2⟩
  · rw [hadv]; rfl
  · simp [hadv, encUpdate_eq, h.begin_sum]
  · rw [hadv, State.setRnd_rnd, encBegin_rnd, h.rnd, ofNat_sub_one (by omega)]; rfl
  · rw [hadv]
    refine Eq.trans h.update_words ?_
    rw [hk, List.range_zero, List.foldl_nil, encRounds, encRounds, List.range_succ, List.foldl_append]
    rfl

/-- One step of `DECW` before the last position of a round (R100). -/
theorem decStep_inner {s t : State} {r k : Nat} (h : DecAt s r k t) (hk : k + 1 < s.wordCount) :
    DecAt s r (k + 1) (decStep t) := by
  have hadv : decStep t = (decUpdate t).setP (s.wordCount - 1 - (k + 1)) := by
    have hne : ¬ (decUpdate t).p = 0 := by
      simp only [decUpdate_eq, State.writeW_p, h.p]
      omega
    rw [decStep, decAdvance, if_neg hne, decUpdate_eq, State.writeW_p, h.p]
    rfl
  have hwb := h.step_wb (by omega)
  refine ⟨h.frame.trans (decStep_frame t), ?_, ?_, ?_, ?_, hwb.1, hwb.2⟩
  · rw [hadv]; rfl
  · simp [hadv, decUpdate_eq, h.sum]
  · simp [hadv, decUpdate_eq, h.rnd]
  · rw [hadv]; exact h.update_words

/-- The last step of a round of `DECW` (R33, R100). -/
theorem decStep_last {s t : State} {r k : Nat} (h : DecAt s r k t) (hk : k + 1 = s.wordCount)
    (hr : r < rounds s.wordCount) : DecAt s (r + 1) 0 (decStep t) := by
  have hadv : decStep t = (((decUpdate t).setP (s.wordCount - 1)).setRnd (t.rnd - 1)).setSum (t.sum - delta) := by
    have heq : (decUpdate t).p = 0 := by
      simp only [decUpdate_eq, State.writeW_p, h.p]
      omega
    rw [decStep, decAdvance, if_pos heq]
    simp [decUpdate_eq, h.frame.wordCount]
  have hwb := h.step_wb (by omega)
  refine ⟨h.frame.trans (decStep_frame t), ?_, ?_, ?_, ?_, hwb.1, hwb.2⟩
  · rw [hadv]; rfl
  · rw [hadv, State.setSum_sum, h.sum, ofNat_pred_mul (by omega)]; rfl
  · rw [hadv, State.setSum_rnd, State.setRnd_rnd, h.rnd, ofNat_sub_one (by omega)]; rfl
  · rw [hadv]
    refine Eq.trans h.update_words ?_
    rw [hk, List.range_zero, List.foldl_nil, decRounds, decRounds, List.range_succ, List.foldl_append]
    rfl

/-- The schedule of a two-level loop counted in single steps: carried along a round and over its end. -/
theorem iterate_rounds {P : Nat → Nat → State → Prop} {f : State → State} {m q : Nat} {s : State} (hm : 1 ≤ m)
    (start : P 0 0 s) (inner : ∀ r k t, r < q → k + 1 < m → P r k t → P r (k + 1) (f t))
    (last : ∀ r k t, r < q → k + 1 = m → P r k t → P (r + 1) 0 (f t)) :
    ∀ r k, r < q → k < m → P r k (f^[r * m + k] s) := by
  have round : ∀ r k, r < q → k < m → P r 0 (f^[r * m] s) → P r k (f^[r * m + k] s) := by
    intro r k hr hk h0
    induction k with
    | zero => exact h0
    | succ k ih =>
      rw [← Nat.add_assoc, Function.iterate_succ_apply']
      exact inner r k _ hr hk (ih (by omega))
  have starts : ∀ r, r < q → P r 0 (f^[r * m] s) := by
    intro r hr
    induction r with
    | zero => simpa using start
    | succ r ih =>
      have h := last r (m - 1) _ (by omega) (by omega) (round r (m - 1) (by omega) (by omega) (ih (by omega)))
      rw [← Function.iterate_succ_apply' f] at h
      rwa [show (r + 1) * m = r * m + (m - 1) + 1 by rw [Nat.add_mul]; omega]
  exact fun r k hr hk => round r k hr hk (starts r hr)

/-- The state when all `q * m` steps have run. -/
theorem iterate_all_rounds {P : Nat → Nat → State → Prop} {f : State → State} {m q : Nat} {s : State} (hm : 1 ≤ m)
    (hq : 1 ≤ q) (start : P 0 0 s) (inner : ∀ r k t, r < q → k + 1 < m → P r k t → P r (k + 1) (f t))
    (last : ∀ r k t, r < q → k + 1 = m → P r k t → P (r + 1) 0 (f t)) : P q 0 (f^[q * m] s) := by
  have h := last (q - 1) (m - 1) _ (by omega) (by omega)
    (iterate_rounds hm start inner last (q - 1) (m - 1) (by omega) (by omega))
  rw [← Function.iterate_succ_apply' f, show q - 1 + 1 = q by omega] at h
  have : q * m = (q - 1) * m + m := by
    conv_lhs => rw [show q = q - 1 + 1 by omega, Nat.add_mul]
    omega
  rwa [Nat.succ_eq_add_one, show (q - 1) * m + (m - 1) + 1 = q * m by omega] at h

theorem rounds_pos (m : Nat) : 1 ≤ rounds m := Nat.le_trans (by decide) (Nat.le_add_right 6 (52 / m))

/-- The engine after `r * m + k` steps of `ENCW` (R97). -/
theorem encStep_iterate (s : State) (hm : 2 ≤ s.wordCount) (r k : Nat) (hr : r < rounds s.wordCount)
    (hk : k < s.wordCount) : EncAt s r k (encStep^[r * s.wordCount + k] (encInit s)) :=
  iterate_rounds (P := EncAt s) (by omega) (encInit_at s) (fun _ _ _ _ hk h => encStep_inner h hk)
    (fun _ _ _ hr hk h => encStep_last h hk hr) r k hr hk

/-- The engine after `r * m + k` steps of `DECW` (R100). -/
theorem decStep_iterate (s : State) (hm : 2 ≤ s.wordCount) (r k : Nat) (hr : r < rounds s.wordCount)
    (hk : k < s.wordCount) : DecAt s r k (decStep^[r * s.wordCount + k] (decInit s)) :=
  iterate_rounds (P := DecAt s) (by omega) (decInit_at s) (fun _ _ _ _ hk h => decStep_inner h hk)
    (fun _ _ _ hr hk h => decStep_last h hk hr) r k hr hk

/-- What `ENCW`'s work does to a block of at least two words (R96, R97). -/
theorem encBlock_at (s : State) (hm : 2 ≤ s.wordCount) : EncAt s (rounds s.wordCount) 0 (encBlock s) := by
  rw [encBlock, if_neg (by omega)]
  exact iterate_all_rounds (by omega) (rounds_pos _) (encInit_at s) (fun _ _ _ _ hk h => encStep_inner h hk)
    (fun _ _ _ hr hk h => encStep_last h hk hr)

/-- What `DECW`'s work does to a block of at least two words (R99, R100). -/
theorem decBlock_at (s : State) (hm : 2 ≤ s.wordCount) : DecAt s (rounds s.wordCount) 0 (decBlock s) := by
  rw [decBlock, if_neg (by omega)]
  exact iterate_all_rounds (by omega) (rounds_pos _) (decInit_at s) (fun _ _ _ _ hk h => decStep_inner h hk)
    (fun _ _ _ hr hk h => decStep_last h hk hr)

/-- A block of fewer than two words is returned unchanged (R103). -/
theorem encBlock_short {s : State} (hm : s.wordCount < 2) : encBlock s = s := if_pos hm

/-- A block of fewer than two words is returned unchanged (R103). -/
theorem decBlock_short {s : State} (hm : s.wordCount < 2) : decBlock s = s := if_pos hm

theorem encBlock_frame (s : State) : TransformFrame s (encBlock s) := by
  rcases Nat.lt_or_ge s.wordCount 2 with h | h
  · rw [encBlock_short h]; exact .refl s
  · exact (encBlock_at s h).frame

theorem decBlock_frame (s : State) : TransformFrame s (decBlock s) := by
  rcases Nat.lt_or_ge s.wordCount 2 with h | h
  · rw [decBlock_short h]; exact .refl s
  · exact (decBlock_at s h).frame

/-- The block after `ENCW`'s work is the encryption of the block before (R96, R103). -/
theorem encBlock_readW (s : State) : (encBlock s).readW = encryptBlock s.key s.wordCount s.readW := by
  rcases Nat.lt_or_ge s.wordCount 2 with h | h
  · rw [encBlock_short h, encryptBlock, if_pos h]
  · rw [encryptBlock, if_neg (by omega)]; exact (encBlock_at s h).words

/-- The block after `DECW`'s work is the decryption of the block before (R99, R103). -/
theorem decBlock_readW (s : State) : (decBlock s).readW = decryptBlock s.key s.wordCount s.readW := by
  rcases Nat.lt_or_ge s.wordCount 2 with h | h
  · rw [decBlock_short h, decryptBlock, if_pos h]
  · rw [decryptBlock, if_neg (by omega)]; exact (decBlock_at s h).words

/-- The internal registers after an encryption (R101). -/
theorem encBlock_internal (s : State) (hm : 2 ≤ s.wordCount) :
    (encBlock s).sum = delta * BitVec.ofNat 32 (rounds s.wordCount) ∧ (encBlock s).rnd = 0 ∧ (encBlock s).p = 0 := by
  have h := encBlock_at s hm
  exact ⟨by simpa using h.sum, by simpa using h.rnd, h.p⟩

/-- The internal registers after a decryption (R101). -/
theorem decBlock_internal (s : State) (hm : 2 ≤ s.wordCount) :
    (decBlock s).sum = 0 ∧ (decBlock s).rnd = 0 ∧ (decBlock s).p = s.wordCount - 1 := by
  have h := decBlock_at s hm
  exact ⟨by simpa using h.sum, by simpa using h.rnd, h.p⟩

/-- The word buffer stays canonical and within its capacity. -/
theorem encBlock_wb {s : State} (hle : s.wordCount ≤ s.wcap) (hwf : Memory.wf s.wb = true)
    (hb : Memory.below s.wcap s.wb = true) :
    Memory.wf (encBlock s).wb = true ∧ Memory.below s.wcap (encBlock s).wb = true := by
  rcases Nat.lt_or_ge s.wordCount 2 with h | h
  · rw [encBlock_short h]; exact ⟨hwf, hb⟩
  · exact ⟨(encBlock_at s h).wf hwf, (encBlock_at s h).below hle hb⟩

/-- The word buffer stays canonical and within its capacity. -/
theorem decBlock_wb {s : State} (hle : s.wordCount ≤ s.wcap) (hwf : Memory.wf s.wb = true)
    (hb : Memory.below s.wcap s.wb = true) :
    Memory.wf (decBlock s).wb = true ∧ Memory.below s.wcap (decBlock s).wb = true := by
  rcases Nat.lt_or_ge s.wordCount 2 with h | h
  · rw [decBlock_short h]; exact ⟨hwf, hb⟩
  · exact ⟨(decBlock_at s h).wf hwf, (decBlock_at s h).below hle hb⟩

end Sys2Proof.Machine
end

