-- ==== Sys2Proof/Laws/Codec.lean ====
section
/-! SUPPORT. What the codec's loops and the key load compute: the pseudocode of 41_codec R122 to R127 against the
formulas of R121 and R125, and 42_key_load R141 against R140. -/

namespace Sys2Proof.Rules

/-- Byte `i` of a sequence of `len` bytes as R121 takes it: zero beyond the sequence. -/
def laneByte (b : Nat → Byte) (len i : Nat) : Word := if i < len then (b i).setWidth 32 else 0

theorem packedWord_lanes (b : Nat → Byte) (len j : Nat) :
    packedWord b len j = laneByte b len (4 * j) ||| (laneByte b len (4 * j + 1) <<< 8)
      ||| (laneByte b len (4 * j + 2) <<< 16) ||| (laneByte b len (4 * j + 3) <<< 24) := rfl

theorem laneByte_of_le {b : Nat → Byte} {len i : Nat} (h : len ≤ i) : laneByte b len i = 0 := if_neg (by omega)

theorem laneByte_of_lt {b : Nat → Byte} {len i : Nat} (h : i < len) : laneByte b len i = (b i).setWidth 32 := if_pos h

theorem laneByte_succ_of_ne {b : Nat → Byte} {len i : Nat} (h : i ≠ len) :
    laneByte b (len + 1) i = laneByte b len i := by
  simp only [laneByte]
  by_cases hi : i < len
  · rw [if_pos hi, if_pos (by omega)]
  · rw [if_neg hi, if_neg (by omega)]

/-- A word beyond the sequence is zero. -/
theorem packedWord_beyond {b : Nat → Byte} {len j : Nat} (h : len ≤ 4 * j) : packedWord b len j = 0 := by
  rw [packedWord_lanes, laneByte_of_le h, laneByte_of_le (by omega), laneByte_of_le (by omega),
    laneByte_of_le (by omega)]
  simp

/-- One more byte goes into the lane of its own word (R121, S9). -/
theorem packedWord_succ (b : Nat → Byte) (i j : Nat) :
    packedWord b (i + 1) j =
      if j = i / 4 then packedWord b i j ||| ((b i).setWidth 32 <<< (8 * (i % 4))) else packedWord b i j := by
  split
  · rename_i hj
    obtain ⟨l, hl, hi⟩ : ∃ l, l < 4 ∧ i = 4 * j + l := ⟨i % 4, by omega, by omega⟩
    have hmod : i % 4 = l := by omega
    rw [hmod, packedWord_lanes, packedWord_lanes]
    have lane : ∀ k, k ≠ l → laneByte b (i + 1) (4 * j + k) = laneByte b i (4 * j + k) :=
      fun k hk => laneByte_succ_of_ne (by omega)
    have own : laneByte b (i + 1) (4 * j + l) = (b i).setWidth 32 := by rw [hi]; exact laneByte_of_lt (by omega)
    have later : ∀ k, l ≤ k → laneByte b i (4 * j + k) = 0 := fun k hk => laneByte_of_le (by omega)
    have l0 := lane 0; have l1 := lane 1; have l2 := lane 2; have l3 := lane 3
    have z0 := later 0; have z1 := later 1; have z2 := later 2; have z3 := later 3
    simp only [Nat.add_zero] at l0 z0
    rcases (by omega : l = 0 ∨ l = 1 ∨ l = 2 ∨ l = 3) with rfl | rfl | rfl | rfl
    · simp only [Nat.add_zero] at own
      rw [own, l1 (by omega), l2 (by omega), l3 (by omega), z0 (by omega), z1 (by omega), z2 (by omega), z3 (by omega)]
      simp
    · rw [own, l0 (by omega), l2 (by omega), l3 (by omega), z1 (by omega), z2 (by omega), z3 (by omega)]
      simp
    · rw [own, l0 (by omega), l1 (by omega), l3 (by omega), z2 (by omega), z3 (by omega)]
      simp
    · rw [own, l0 (by omega), l1 (by omega), l2 (by omega), z3 (by omega)]
      simp
  · rename_i hj
    rw [packedWord_lanes, packedWord_lanes, laneByte_succ_of_ne (by omega), laneByte_succ_of_ne (by omega),
      laneByte_succ_of_ne (by omega), laneByte_succ_of_ne (by omega)]

end Sys2Proof.Rules

namespace Sys2Proof.Machine

open Sys2Proof.Rules

theorem wordsFor_pos {len : Nat} (h : 0 < len) : 1 ≤ wordsFor len := by unfold wordsFor; omega

/-- Clearing the words of a block (R122). -/
theorem clearWords_spec (wc : Nat) (s : State) :
    (clearWords wc s).readW = (fun j => if j < wc then 0 else s.readW j) ∧
      clearWords wc s = { s with wb := (clearWords wc s).wb } := by
  refine forUp_induct (P := fun n t => t.readW = (fun j => if j < n then 0 else s.readW j) ∧ t = { s with wb := t.wb })
    ⟨by simp, rfl⟩ ?_
  rintro i t - ⟨hw, hf⟩
  refine ⟨?_, ?_⟩
  · rw [State.writeW_readW, hw]
    funext j
    simp only [put]
    by_cases hj : j = i
    · rw [if_pos hj, if_pos (by omega)]
    · rw [if_neg hj]
      by_cases hlt : j < i
      · rw [if_pos hlt, if_pos (by omega)]
      · rw [if_neg hlt, if_neg (by omega)]
  · conv_lhs => rw [hf]
    rfl

/-- The pack loop: `WB[0 .. wc-1]` hold the packed words, every other cell its old value (R121, R122). -/
theorem packBytes_spec (s : State) :
    (∀ j, (packBytes s).readW j =
      if j < wordsFor s.byteCount then packedWord s.readB s.byteCount j else s.readW j) ∧
      packBytes s = { s with wb := (packBytes s).wb } := by
  obtain ⟨hw0, hf0⟩ := clearWords_spec (wordsFor s.byteCount) s
  have h := forUp_induct (n := s.byteCount) (body := orByte) (s := clearWords (wordsFor s.byteCount) s)
    (P := fun n t => (∀ j, t.readW j = if j < wordsFor s.byteCount then packedWord s.readB n j else s.readW j) ∧
      t = { s with wb := t.wb })
    ⟨fun j => by rw [hw0, packedWord_beyond (Nat.zero_le _)], hf0⟩ ?_
  · exact h
  rintro i t hi ⟨hw, hf⟩
  have hb : t.readB i = s.readB i := by rw [hf]; rfl
  refine ⟨fun j => ?_, ?_⟩
  · rw [orByte, State.writeW_readW, hb, put, packedWord_succ]
    have hin : i / 4 < wordsFor s.byteCount := by unfold wordsFor; omega
    by_cases hj : j = i / 4
    · rw [if_pos hj, hj, if_pos hin, if_pos rfl, hw, if_pos hin]; rfl
    · rw [if_neg hj, if_neg hj, hw]
  · generalize t.wb = w at hf
    subst hf
    rfl

/-- The unpack loop (R125 to R127). -/
theorem unpackBytes_spec (n : Nat) (s : State) :
    (∀ i, (unpackBytes n s).readB i = if i < n then Rules.unpackedByte s.readW i else s.readB i) ∧
      unpackBytes n s = { s with bb := (unpackBytes n s).bb, blen := BitVec.ofNat 32 n } := by
  have byte : ∀ (t : State) (i : Nat), t.unpackedByte i = Rules.unpackedByte t.readW i := by
    intro t i
    ext k hk
    simp only [State.unpackedByte, Rules.unpackedByte, laneShift, BitVec.getElem_setWidth, BitVec.getLsbD_and]
    have : (255#32).getLsbD k = true := by
      rcases (by omega : k = 0 ∨ k = 1 ∨ k = 2 ∨ k = 3 ∨ k = 4 ∨ k = 5 ∨ k = 6 ∨ k = 7) with
        rfl | rfl | rfl | rfl | rfl | rfl | rfl | rfl <;> rfl
    simp [this]
  have h := forUp_induct (n := n) (body := fun i s => s.writeB i (s.unpackedByte i)) (s := s)
    (P := fun n t => (∀ i, t.readB i = if i < n then Rules.unpackedByte s.readW i else s.readB i) ∧
      t = { s with bb := t.bb })
    ⟨fun i => by simp, rfl⟩ ?_
  · obtain ⟨hw, hf⟩ := h
    refine ⟨fun i => ?_, ?_⟩
    · rw [← hw i]; rfl
    · unfold unpackBytes
      conv_lhs => rw [hf]
      rfl
  rintro i t hi ⟨hw, hf⟩
  have hr : t.readW = s.readW := by rw [hf]; rfl
  refine ⟨fun j => ?_, ?_⟩
  · rw [byte, hr]
    by_cases hj : j = i
    · subst hj; rw [State.writeB_readB_same, if_pos (by omega)]
    · rw [State.writeB_readB_other _ hj, hw]
      by_cases hlt : j < i
      · rw [if_pos hlt, if_pos (by omega)]
      · rw [if_neg hlt, if_neg (by omega)]
  · generalize t.bb = b at hf
    subst hf
    rfl

/-- The words of an accepted byte count fit the word buffer (R66, R122). -/
theorem wordsFor_le {s : State} {len : Nat} (h : len ≤ s.bcap) : wordsFor len ≤ s.wcap := by
  simp only [State.bcap, Params.bcap, State.wcap, wordsFor] at *; omega

/-- With room for the length word, they leave one word free (R123). -/
theorem wordsFor_lt {s : State} {len : Nat} (h : len ≤ s.bcap - 4) : wordsFor len < s.wcap := by
  have := s.params.wcap.two_le
  simp only [State.bcap, Params.bcap, State.wcap, wordsFor] at *; omega

/-- The pack loop keeps the word buffer canonical and within its capacity (R66). -/
theorem packBytes_wb {s : State} (hlen : s.byteCount ≤ s.bcap) (hwf : Memory.wf s.wb = true)
    (hb : Memory.below s.wcap s.wb = true) :
    Memory.wf (packBytes s).wb = true ∧ Memory.below s.wcap (packBytes s).wb = true := by
  have hwc := wordsFor_le hlen
  have start : Memory.wf (clearWords (wordsFor s.byteCount) s).wb = true ∧
      Memory.below s.wcap (clearWords (wordsFor s.byteCount) s).wb = true :=
    forUp_keeps (P := fun t => Memory.wf t.wb = true ∧ Memory.below s.wcap t.wb = true) ⟨hwf, hb⟩
      fun i _ hi h => ⟨Memory.wf_set _ _ h.1, Memory.below_set _ (by omega) h.2⟩
  refine forUp_keeps (P := fun t => Memory.wf t.wb = true ∧ Memory.below s.wcap t.wb = true) start
    fun i _ hi h => ⟨Memory.wf_set _ _ h.1, Memory.below_set _ ?_ h.2⟩
  unfold wordsFor at hwc
  omega

/-- The unpack loop keeps the byte buffer canonical and within its capacity (R66). -/
theorem unpackBytes_bb {n : Nat} {s : State} (hn : n ≤ s.bcap) (hwf : Memory.wf s.bb = true)
    (hb : Memory.below s.bcap s.bb = true) :
    Memory.wf (unpackBytes n s).bb = true ∧ Memory.below s.bcap (unpackBytes n s).bb = true :=
  forUp_keeps (P := fun t => Memory.wf t.bb = true ∧ Memory.below s.bcap t.bb = true) ⟨hwf, hb⟩
    fun _ _ hi h => ⟨Memory.wf_set _ _ h.1, Memory.below_set _ (by omega) h.2⟩

/-- The range test of the machine is the integer test of R127. -/
theorem lengthOk_iff {s : State} (h : 1 ≤ s.wordCount) :
    s.lengthOk = true ↔ lengthAccepted s.wordCount s.embeddedLength := by
  rw [State.lengthOk, Bool.and_eq_true, decide_eq_true_eq, decide_eq_true_eq]
  simp only [lengthAccepted, State.dataBytes]
  omega

/-- `LDKEY` loads the packing of the first 16 bytes, zero-extended (R140, R141). -/
theorem loadKey_eq (s : State) : loadKey s =
    s.setKey ⟨keyWord s.readB s.byteCount 0, keyWord s.readB s.byteCount 1, keyWord s.readB s.byteCount 2,
      keyWord s.readB s.byteCount 3⟩ := by
  have byte : ∀ i, i < 16 → (s.normKeyByte i).setWidth 32 = laneByte s.readB (min s.byteCount 16) i := by
    intro i hi
    simp only [State.normKeyByte, laneByte]
    by_cases h : i < s.byteCount
    · rw [if_pos h, if_pos (by omega)]
    · rw [if_neg h, if_neg (by omega)]; rfl
  have word : ∀ j, j < 4 → s.normKeyWord j = keyWord s.readB s.byteCount j := by
    intro j hj
    rw [State.normKeyWord, keyWord, packedWord_lanes, byte _ (by omega), byte _ (by omega), byte _ (by omega),
      byte _ (by omega)]
  rw [loadKey, word 0 (by omega), word 1 (by omega), word 2 (by omega), word 3 (by omega)]

end Sys2Proof.Machine
end

