-- ==== Sys2Proof/Laws/Blocks.lean ====
section
/-! SUPPORT. Facts about the formulas of 40_word_transform and 41_codec alone, without a state: a transform looks at
its own block only, and packing and unpacking undo each other. -/

namespace Sys2Proof.Rules

open Sys2Proof.Machine

/-- One encryption update depends on the block alone. -/
theorem encPosition_congr {k : KeyRegs} {m p : Nat} {sum : Word} {w w' : Block} (hm : 0 < m)
    (h : ∀ i, i < m → w i = w' i) : ∀ i, i < m → encPosition k m sum w p i = encPosition k m sum w' p i := by
  intro i hi
  have hy := h _ (Nat.mod_lt (p + 1) hm)
  have hz := h _ (Nat.mod_lt (p + m - 1) hm)
  simp only [encPosition, put, hy, hz]
  split
  · rename_i e; subst e; rw [h _ hi]
  · exact h i hi

/-- One decryption update depends on the block alone. -/
theorem decPosition_congr {k : KeyRegs} {m p : Nat} {sum : Word} {w w' : Block} (hm : 0 < m)
    (h : ∀ i, i < m → w i = w' i) : ∀ i, i < m → decPosition k m sum w p i = decPosition k m sum w' p i := by
  intro i hi
  have hy := h _ (Nat.mod_lt (p + 1) hm)
  have hz := h _ (Nat.mod_lt (p + m - 1) hm)
  simp only [decPosition, put, hy, hz]
  split
  · rename_i e; subst e; rw [h _ hi]
  · exact h i hi

/-- Passes that agree on the block agree on it over a whole loop. -/
theorem foldl_congr_below {α : Type} {f : Block → α → Block} {m : Nat} (l : List α)
    (pass : ∀ w w' a, (∀ i, i < m → w i = w' i) → ∀ i, i < m → f w a i = f w' a i) :
    ∀ {w w' : Block}, (∀ i, i < m → w i = w' i) → ∀ i, i < m → l.foldl f w i = l.foldl f w' i := by
  induction l with
  | nil => exact fun h => h
  | cons a l ih => exact fun h => ih (pass _ _ a h)

/-- An encryption round depends on the block alone. -/
theorem encRound_congr {k : KeyRegs} {m : Nat} {sum : Word} {w w' : Block} (hm : 0 < m)
    (h : ∀ i, i < m → w i = w' i) : ∀ i, i < m → encRound k m sum w i = encRound k m sum w' i :=
  foldl_congr_below (f := encPosition k m sum) _ (fun _ _ _ h => encPosition_congr hm h) h

/-- A decryption round depends on the block alone. -/
theorem decRound_congr {k : KeyRegs} {m : Nat} {sum : Word} {w w' : Block} (hm : 0 < m)
    (h : ∀ i, i < m → w i = w' i) : ∀ i, i < m → decRound k m sum w i = decRound k m sum w' i :=
  foldl_congr_below (f := fun w i => decPosition k m sum w (m - 1 - i)) _ (fun _ _ _ h => decPosition_congr hm h) h

/-- The ciphertext block is a function of the block alone (R106). -/
theorem encrypt_congr {k : KeyRegs} {m : Nat} {w w' : Block} (hm : 0 < m) (h : ∀ i, i < m → w i = w' i) :
    ∀ i, i < m → encrypt k m w i = encrypt k m w' i :=
  foldl_congr_below (f := fun w r => encRound k m (delta * BitVec.ofNat 32 (r + 1)) w) _ (fun _ _ _ h => encRound_congr hm h) h

/-- The decrypted block is a function of the block alone (R106). -/
theorem decrypt_congr {k : KeyRegs} {m : Nat} {w w' : Block} (hm : 0 < m) (h : ∀ i, i < m → w i = w' i) :
    ∀ i, i < m → decrypt k m w i = decrypt k m w' i :=
  foldl_congr_below (f := fun w j => decRound k m (delta * BitVec.ofNat 32 (rounds m - j)) w) _ (fun _ _ _ h => decRound_congr hm h) h

theorem encryptBlock_congr {k : KeyRegs} {m : Nat} {w w' : Block} (h : ∀ i, i < m → w i = w' i) :
    ∀ i, i < m → encryptBlock k m w i = encryptBlock k m w' i := by
  unfold encryptBlock
  split
  · exact h
  · exact encrypt_congr (by omega) h

theorem decryptBlock_congr {k : KeyRegs} {m : Nat} {w w' : Block} (h : ∀ i, i < m → w i = w' i) :
    ∀ i, i < m → decryptBlock k m w i = decryptBlock k m w' i := by
  unfold decryptBlock
  split
  · exact h
  · exact decrypt_congr (by omega) h

/-- A loop whose passes leave a cell alone leaves it alone. -/
theorem foldl_keeps_cell {α : Type} {f : Block → α → Block} {i : Nat} {l : List α}
    (pass : ∀ w a, a ∈ l → f w a i = w i) (w : Block) : l.foldl f w i = w i := by
  induction l generalizing w with
  | nil => rfl
  | cons a l ih =>
    rw [List.foldl_cons, ih fun w b hb => pass w b (List.mem_cons_of_mem a hb), pass w a (List.mem_cons_self ..)]

/-- An encryption leaves the cells beyond its block alone (R28). -/
theorem encryptBlock_beyond {k : KeyRegs} {m i : Nat} (w : Block) (h : m ≤ i) : encryptBlock k m w i = w i := by
  unfold encryptBlock
  split
  · rfl
  · refine foldl_keeps_cell (fun w r _ => foldl_keeps_cell (fun w p hp => ?_) w) w
    rw [List.mem_range] at hp
    exact put_other _ (by omega) _

/-- A decryption leaves the cells beyond its block alone (R28). -/
theorem decryptBlock_beyond {k : KeyRegs} {m i : Nat} (w : Block) (h : m ≤ i) : decryptBlock k m w i = w i := by
  unfold decryptBlock
  split
  · rfl
  · refine foldl_keeps_cell (fun w r _ => foldl_keeps_cell (fun w p hp => ?_) w) w
    rw [List.mem_range] at hp
    exact put_other _ (by omega) _

/-- `decryptBlock` undoes `encryptBlock`, whatever the length (R102, R103). -/
theorem decryptBlock_encryptBlock (k : KeyRegs) (m : Nat) (w : Block) :
    decryptBlock k m (encryptBlock k m w) = w := by
  unfold decryptBlock encryptBlock
  by_cases h : m < 2
  · rw [if_pos h, if_pos h]
  · rw [if_neg h, if_neg h, decrypt_encrypt k w (by omega)]

/-- `encryptBlock` undoes `decryptBlock`, whatever the length (R102, R103). -/
theorem encryptBlock_decryptBlock (k : KeyRegs) (m : Nat) (w : Block) :
    encryptBlock k m (decryptBlock k m w) = w := by
  unfold decryptBlock encryptBlock
  by_cases h : m < 2
  · rw [if_pos h, if_pos h]
  · rw [if_neg h, if_neg h, encrypt_decrypt k w (by omega)]

/-- Four bytes in the four lanes of a word, read back from a lane. -/
theorem lane_of_lanes (b0 b1 b2 b3 : Byte) {l : Nat} (hl : l < 4) :
    (((b0.setWidth 32 ||| (b1.setWidth 32 <<< 8) ||| (b2.setWidth 32 <<< 16) ||| (b3.setWidth 32 <<< 24)) >>> (8 * l))
      &&& 0xFF#32).setWidth 8 = [b0, b1, b2, b3].getD l 0 := by
  rcases (by omega : l = 0 ∨ l = 1 ∨ l = 2 ∨ l = 3) with rfl | rfl | rfl | rfl <;>
  · ext k hk
    rcases (by omega : k = 0 ∨ k = 1 ∨ k = 2 ∨ k = 3 ∨ k = 4 ∨ k = 5 ∨ k = 6 ∨ k = 7) with
      rfl | rfl | rfl | rfl | rfl | rfl | rfl | rfl <;> simp

/-- The lanes of a word put together again. -/
theorem lanes_of_lane (v : Word) :
    ((((v >>> 0) &&& 0xFF#32).setWidth 8).setWidth 32 ||| ((((v >>> 8) &&& 0xFF#32).setWidth 8).setWidth 32 <<< 8) |||
      ((((v >>> 16) &&& 0xFF#32).setWidth 8).setWidth 32 <<< 16) |||
      ((((v >>> 24) &&& 0xFF#32).setWidth 8).setWidth 32 <<< 24) : Word) = v := by
  ext k hk
  obtain ⟨l, j, hl, hj, rfl⟩ : ∃ l j, l < 4 ∧ j < 8 ∧ k = 8 * l + j := ⟨k / 8, k % 8, by omega, by omega, by omega⟩
  rcases (by omega : l = 0 ∨ l = 1 ∨ l = 2 ∨ l = 3) with rfl | rfl | rfl | rfl <;>
  · rcases (by omega : j = 0 ∨ j = 1 ∨ j = 2 ∨ j = 3 ∨ j = 4 ∨ j = 5 ∨ j = 6 ∨ j = 7) with
      rfl | rfl | rfl | rfl | rfl | rfl | rfl | rfl <;> simp

/-- Unpacking the packed words gives the bytes back, and zero beyond the sequence (R129). -/
theorem unpackedByte_packedWord (b : Nat → Byte) (len i : Nat) :
    unpackedByte (packedWord b len) i = if i < len then b i else 0 := by
  have hb : ∀ j, laneByte b len j = (if j < len then b j else 0).setWidth 32 := by
    intro j; simp only [laneByte]; split <;> rfl
  simp only [unpackedByte, packedWord_lanes, hb]
  obtain ⟨j, l, hl, rfl⟩ : ∃ j l, l < 4 ∧ i = 4 * j + l := ⟨i / 4, i % 4, by omega, by omega⟩
  rw [show (4 * j + l) / 4 = j by omega, show (4 * j + l) % 4 = l by omega]
  refine (lane_of_lanes _ _ _ _ hl).trans ?_
  rcases (by omega : l = 0 ∨ l = 1 ∨ l = 2 ∨ l = 3) with rfl | rfl | rfl | rfl <;> rfl

/-- Packing the unpacked bytes of a block gives its words back (R129). -/
theorem packedWord_unpackedByte (w : Block) {m j : Nat} (hj : j < m) : packedWord (unpackedByte w) (4 * m) j = w j := by
  rw [packedWord_lanes, laneByte_of_lt (by omega), laneByte_of_lt (by omega), laneByte_of_lt (by omega),
    laneByte_of_lt (by omega)]
  simp only [unpackedByte]
  rw [show 4 * j / 4 = j by omega, show (4 * j + 1) / 4 = j by omega, show (4 * j + 2) / 4 = j by omega,
    show (4 * j + 3) / 4 = j by omega, show 4 * j % 4 = 0 by omega, show (4 * j + 1) % 4 = 1 by omega,
    show (4 * j + 2) % 4 = 2 by omega, show (4 * j + 3) % 4 = 3 by omega]
  exact lanes_of_lane (w j)

/-- A packed word depends on the bytes of the sequence alone. -/
theorem packedWord_congr {b b' : Nat → Byte} {len : Nat} (h : ∀ i, i < len → b i = b' i) (j : Nat) :
    packedWord b len j = packedWord b' len j := by
  have lane : ∀ i, laneByte b len i = laneByte b' len i := by
    intro i
    simp only [laneByte]
    split
    · rename_i hi; rw [h i hi]
    · rfl
  rw [packedWord_lanes, packedWord_lanes, lane, lane, lane, lane]

/-- An unpacked byte depends on its own word alone. -/
theorem unpackedByte_congr {w w' : Block} {i : Nat} (h : w (i / 4) = w' (i / 4)) :
    unpackedByte w i = unpackedByte w' i := by
  simp only [unpackedByte, h]

end Sys2Proof.Rules
end

