-- ==== Sys2Proof/Laws/Decode.lean ====
section
/-! SUPPORT. The decoder against the encoder. -/

namespace Sys2Proof

/-- Each of the nine commands has well-formed fields. -/
@[simp] theorem Instr.wf_all (i : Instr) : i.wf = true := by cases i <;> rfl

/-- Decoding the word of a command gives the command. -/
@[simp] theorem decode_encode (i : Instr) : decode (encode i) = .ok i := by cases i <;> rfl

/-- The bits of a joined word, field by field (R70). -/
theorem joinFields_getLsbD (f : CmdFields) (k : Nat) :
    (joinFields f).getLsbD k =
      if k < 4 then f.op.getLsbD k else if k - 4 < 1 then f.l.getLsbD (k - 4) else f.rsv.getLsbD (k - 4 - 1) := by
  have outer := BitVec.getLsbD_append (x := f.rsv ++ f.l) (y := f.op) (i := k)
  have inner := BitVec.getLsbD_append (x := f.rsv) (y := f.l) (i := k - 4)
  rw [inner] at outer
  exact outer

/-- Splitting the word of given fields gives the fields: no bit of the format is dropped. -/
@[simp] theorem splitFields_joinFields (f : CmdFields) : splitFields (joinFields f) = f := by
  obtain ⟨rsv, l, op⟩ := f
  simp only [splitFields, CmdFields.mk.injEq]
  refine ⟨?_, ?_, ?_⟩ <;> ext i hi <;> simp only [BitVec.getElem_extractLsb', joinFields_getLsbD]
  · rw [if_neg (by omega), if_neg (by omega), show 5 + i - 4 - 1 = i by omega, BitVec.getLsbD_eq_getElem hi]
  · rw [if_neg (by omega), if_pos (by omega), show 4 + i - 4 = i by omega, BitVec.getLsbD_eq_getElem hi]
  · rw [if_pos (by omega), show 0 + i = i by omega, BitVec.getLsbD_eq_getElem hi]

/-- Joining the fields of a word gives the word. -/
@[simp] theorem joinFields_splitFields (c : Word) : joinFields (splitFields c) = c := by
  ext i hi
  rw [← BitVec.getLsbD_eq_getElem hi, joinFields_getLsbD, ← BitVec.getLsbD_eq_getElem hi]
  simp only [splitFields, BitVec.getLsbD_extractLsb']
  split
  · simp_all
  · split
    · have : i = 4 := by omega
      subst this; simp
    · rw [show 5 + (i - 4 - 1) = i by omega]
      simp only [Bool.and_eq_right_iff_imp, decide_eq_true_eq]
      intro; omega

/-- Fields that decode are the fields of the instruction they decode to. -/
theorem fields_of_decodeOp {l : BitVec 1} {op : BitVec 4} {i : Instr}
    (h : decodeOp op.toNat l.toNat = .ok i) : (⟨0, l, op⟩ : CmdFields) = i.fields := by
  have all : ∀ (l : BitVec 1) (op : BitVec 4), (match decodeOp op.toNat l.toNat with
      | .ok i => decide ((⟨0, l, op⟩ : CmdFields) = i.fields)
      | .error _ => true) = true := by decide +kernel
  simpa [h] using all l op

/-- The only word that decodes to a command is the command's own word (R73). -/
theorem decode_eq_ok {c : Word} {i : Instr} : decode c = .ok i ↔ c = encode i := by
  constructor
  · intro h
    simp only [decode] at h
    split at h
    · cases h
    · rename_i hr
      simp only [ne_eq, Decidable.not_not] at hr
      have hf : splitFields c = i.fields := by
        rw [← fields_of_decodeOp h, ← hr]
      rw [encode, ← hf, joinFields_splitFields]
  · rintro rfl
    exact decode_encode i

end Sys2Proof
end

