-- ==== Sys2Proof/Laws/Commands.lean ====
section
/-! SUPPORT. What a command answers when its lengths are accepted and when they are not, what a host event comes
to, and what a step runs. -/

namespace Sys2Proof.Machine

/-- A command whose length check fails raises `ERR_ARG` (R162). -/
theorem checked_bad {bad : Bool} {run : State → State} {s : State} (h : bad = true) :
    checked bad run s = .next (s.setStatus (statusWord .arg)) := by
  rw [checked, if_pos h]; rfl

/-- A command whose length check passes does its work (R166). -/
theorem checked_ok {bad : Bool} {run : State → State} {s : State} (h : bad = false) :
    checked bad run s = .next (run s) := by
  rw [checked, h]; rfl

@[simp] theorem statusWord_ok : statusWord .ok = 1 := rfl
@[simp] theorem statusWord_cmd : statusWord .cmd = 3 := rfl
@[simp] theorem statusWord_arg : statusWord .arg = 5 := rfl
@[simp] theorem statusWord_length : statusWord .length = 7 := rfl

/-- The byte-count check as the table of R162 writes it. -/
theorem byteCountBad_iff {s : State} {limit : Nat} :
    s.byteCountBad limit = true ↔ s.blen.toNat = 0 ∨ limit < s.blen.toNat := by
  rw [State.byteCountBad, Bool.or_eq_true, decide_eq_true_eq, decide_eq_true_eq]; rfl

/-- The block-length check as the table of R162 writes it. -/
theorem blockTooLong_iff {s : State} : s.blockTooLong = true ↔ s.wcap < s.wlen.toNat := by
  rw [State.blockTooLong, decide_eq_true_eq]; rfl

/-- The word-count check as the table of R162 writes it. -/
theorem wordCountBad_iff {s : State} :
    s.wordCountBad = true ↔ s.wlen.toNat = 0 ∨ s.wcap < s.wlen.toNat := by
  rw [State.wordCountBad, Bool.or_eq_true, decide_eq_true_eq, blockTooLong_iff]; rfl

/-- Once its argument check has passed, `UNPACKL` either unpacks the embedded length or raises `ERR_LENGTH`
(R127, R163). -/
theorem unpacklRun_cases (s : State) :
    (s.lengthOk = true ∧ unpacklRun s = (unpackBytes s.embeddedLength s).setStatus 1) ∨
      (s.lengthOk = false ∧ unpacklRun s = (s.setBlen 0).setStatus 7) := by
  unfold unpacklRun
  cases h : s.lengthOk
  · exact .inr ⟨rfl, rfl⟩
  · exact .inl ⟨rfl, rfl⟩

/-- The length counts stay below the range of a 32-bit register, so no length wraps (R7, 90 C12). -/
theorem bcap_lt (s : State) : s.bcap < 2 ^ 32 := by
  have := s.params.wcap.le_max
  simp only [State.bcap, Params.bcap]
  omega

theorem wcap_lt (s : State) : s.wcap < 2 ^ 32 := by
  have := s.params.wcap.le_max
  simp only [State.wcap]
  omega

/-- What a command does once its argument check has passed, the write of `STATUS` included. -/
def work (i : Instr) (s : State) : State :=
  match i with
  | .encw    => (encBlock s).succeed
  | .decw    => (decBlock s).succeed
  | .pack    => (packWork s).succeed
  | .packl   => (packlWork s).succeed
  | .unpack  => (unpackWork s).succeed
  | .unpackl => unpacklRun s
  | .ldkey   => (loadKey s).succeed
  | .enc     => (unpackWork (encBlock (packlWork s))).succeed
  | .dec     => unpacklRun (decBlock (packWork s))

/-- Every command is its argument check, then its work (R166): the one inversion of `exec`. -/
theorem exec_eq (i : Instr) (s : State) :
    exec i s = .next (if argError i s = true then s.setStatus 5 else work i s) := by
  have pick : ∀ (bad : Bool) (run : State → State), (bad = true ↔ argError i s = true) →
      checked bad run s = .next (if argError i s = true then s.setStatus 5 else run s) := by
    intro bad run h
    by_cases hb : bad = true
    · rw [checked_bad hb, if_pos (h.1 hb)]; rfl
    · rw [checked_ok (by simpa using hb), if_neg fun ha => hb (h.2 ha)]
  cases i
  · exact pick _ (work .encw) (blockTooLong_iff.trans decide_eq_true_iff.symm)
  · exact pick _ (work .decw) (blockTooLong_iff.trans decide_eq_true_iff.symm)
  · exact pick _ (work .pack) (byteCountBad_iff.trans decide_eq_true_iff.symm)
  · exact pick _ (work .packl) (byteCountBad_iff.trans decide_eq_true_iff.symm)
  · exact pick _ (work .unpack) (wordCountBad_iff.trans decide_eq_true_iff.symm)
  · exact pick _ (work .unpackl) (wordCountBad_iff.trans decide_eq_true_iff.symm)
  · exact pick _ (work .ldkey) (byteCountBad_iff.trans decide_eq_true_iff.symm)
  · exact pick _ (work .enc) (byteCountBad_iff.trans decide_eq_true_iff.symm)
  · exact pick _ (work .dec) (byteCountBad_iff.trans decide_eq_true_iff.symm)

/-- The command's answer when its arguments are refused (R162). -/
theorem exec_of_argError {i : Instr} {s : State} (h : argError i s = true) : exec i s = .next (s.setStatus 5) := by
  rw [exec_eq, if_pos h]

/-- The command's answer when its arguments are accepted. -/
theorem exec_of_accepted {i : Instr} {s : State} (h : argError i s = false) : exec i s = .next (work i s) := by
  rw [exec_eq, h, if_neg Bool.false_ne_true]

/-- A command always ends (R193): it answers a next state, whatever the state. -/
theorem exec_next (i : Instr) (s : State) : ∃ t, exec i s = .next t := by
  cases i <;> exact ⟨_, rfl⟩

/-- A host address at or above `BASE` is looked up by its offset (R60). -/
theorem target_base_add (prm : Params) (off width : Nat) :
    target prm (prm.base + off) width = targetAt prm off width := by
  rw [target, if_neg (by omega), Nat.add_sub_cancel_left]

/-- A host address below `BASE` reaches no cell (log entry 2). -/
theorem target_below_base {prm : Params} {addr : Nat} (width : Nat) (h : addr < prm.base) :
    target prm addr width = none := if_pos h

/-- An access that reaches no cell is a host access fault (R54, R61). -/
theorem step_unmapped {s : State} {a : HostAccess} {rest : List HostEvent} {addr width : Nat}
    (ha : a = .read addr width ∨ ∃ v, a = .write addr width v) (hp : s.pending = .access a :: rest)
    (ht : target s.params addr width = none) : step s = .fault (.hostAccess a) := by
  have hs : target (s.take rest).params addr width = none := ht
  rcases ha with rfl | ⟨v, rfl⟩ <;> simp only [step, nextEffect, hp, access, hs]

/-- The host's write of `c` to `CMD`, when it is the oldest event, runs `c` (R26). -/
theorem nextEffect_cmdWrite {s : State} {c : Word} {rest : List HostEvent}
    (h : s.pending = cmdWrite s.params c :: rest) : nextEffect s = .command c (s.take rest) := by
  have ht : target s.params (s.params.base + Reg.cmd.offset) 32 = some (.reg .cmd) := by
    rw [target_base_add]; rfl
  simp only [nextEffect, h, cmdWrite, access]
  have : (s.take rest).params = s.params := rfl
  rw [this, ht]
  rfl

/-- A step whose oldest event is a `CMD` write is the command's (R58). -/
theorem step_cmdWrite {s : State} {c : Word} {rest : List HostEvent}
    (h : s.pending = cmdWrite s.params c :: rest) : step s = runCommand c (s.take rest) := by
  rw [step, nextEffect_cmdWrite h]

/-- With nothing pending the engine is idle. -/
theorem step_idle {s : State} (h : s.pending = []) : step s = .next s := by
  simp only [step, nextEffect, h]

/-! ## `STATUS` is written last and read by no command (R25, R150) -/

theorem encBegin_setStatus (v : Word) (s : State) : encBegin (s.setStatus v) = (encBegin s).setStatus v := by
  unfold encBegin
  by_cases h : s.p = 0
  · rw [if_pos h, if_pos (by simpa using h)]; rfl
  · rw [if_neg h, if_neg (by simpa using h)]

theorem encAdvance_setStatus (v : Word) (s : State) : encAdvance (s.setStatus v) = (encAdvance s).setStatus v := by
  unfold encAdvance
  by_cases h : s.p = s.wordCount - 1
  · rw [if_pos h, if_pos (by simpa using h)]; rfl
  · rw [if_neg h, if_neg (by simpa using h)]; rfl

theorem decAdvance_setStatus (v : Word) (s : State) : decAdvance (s.setStatus v) = (decAdvance s).setStatus v := by
  unfold decAdvance
  by_cases h : s.p = 0
  · rw [if_pos h, if_pos (by simpa using h)]; rfl
  · rw [if_neg h, if_neg (by simpa using h)]; rfl

theorem encStep_setStatus (v : Word) (s : State) : encStep (s.setStatus v) = (encStep s).setStatus v := by
  rw [encStep, encBegin_setStatus, show encUpdate ((encBegin s).setStatus v) = (encUpdate (encBegin s)).setStatus v from rfl,
    encAdvance_setStatus]
  rfl

theorem decStep_setStatus (v : Word) (s : State) : decStep (s.setStatus v) = (decStep s).setStatus v := by
  rw [decStep, show decUpdate (s.setStatus v) = (decUpdate s).setStatus v from rfl, decAdvance_setStatus]
  rfl

theorem encBlock_setStatus (v : Word) (s : State) : encBlock (s.setStatus v) = (encBlock s).setStatus v := by
  unfold encBlock
  by_cases h : s.wordCount < 2
  · rw [if_pos h, if_pos (by simpa using h)]
  · rw [if_neg h, if_neg (by simpa using h)]
    exact iterate_commute (encStep_setStatus v) _ (encInit s)

theorem decBlock_setStatus (v : Word) (s : State) : decBlock (s.setStatus v) = (decBlock s).setStatus v := by
  unfold decBlock
  by_cases h : s.wordCount < 2
  · rw [if_pos h, if_pos (by simpa using h)]
  · rw [if_neg h, if_neg (by simpa using h)]
    exact iterate_commute (decStep_setStatus v) _ (decInit s)

theorem unpackBytes_setStatus (n : Nat) (v : Word) (s : State) :
    unpackBytes n (s.setStatus v) = (unpackBytes n s).setStatus v := by
  unfold unpackBytes
  rw [forUp_commute (g := fun t => t.setStatus v) (fun _ _ => rfl)]
  rfl

theorem unpackWork_setStatus (v : Word) (s : State) : unpackWork (s.setStatus v) = (unpackWork s).setStatus v :=
  unpackBytes_setStatus _ v s

@[simp] theorem setStatus_setStatus (u v : Word) (s : State) : (s.setStatus u).setStatus v = s.setStatus v := rfl

theorem succeed_eq (s : State) : s.succeed = s.setStatus 1 := rfl

theorem unpacklRun_setStatus (v : Word) (s : State) : unpacklRun (s.setStatus v) = unpacklRun s := by
  have hl : (s.setStatus v).lengthOk = s.lengthOk := rfl
  have he : (s.setStatus v).embeddedLength = s.embeddedLength := rfl
  rw [unpacklRun, unpacklRun, hl, he, unpackBytes_setStatus]
  cases s.lengthOk <;> rfl

/-! ## What a step comes to -/

/-- What taking one access comes to, by the cell it reaches. -/
theorem access_cases (a : HostAccess) (s : State) :
    access a s = .faulted a ∨
    (∃ addr w t, a = .read addr w ∧ target s.params addr w = some t ∧
      access a s = .done (s.setResponse (some (s.readTarget t)))) ∨
    (∃ addr w v t, a = .write addr w v ∧ target s.params addr w = some t ∧ access a s = writeTarget t v s) := by
  cases a with
  | read addr w =>
    cases h : target s.params addr w with
    | none => exact .inl (by simp only [access, h])
    | some t => exact .inr (.inl ⟨addr, w, t, rfl, h, by simp only [access, h]⟩)
  | write addr w v =>
    cases h : target s.params addr w with
    | none => exact .inl (by simp only [access, h])
    | some t => exact .inr (.inr ⟨addr, w, v, t, rfl, h, by simp only [access, h]⟩)

/-- A register is reached only at its own offset, by a 32-bit access (R20, R53, R60). -/
theorem target_reg {prm : Params} {addr w : Nat} {r : Reg} (h : target prm addr w = some (.reg r)) :
    addr = prm.base + r.offset ∧ w = 32 := by
  unfold target at h
  split at h
  · cases h
  rename_i hb
  unfold targetAt at h
  split at h
  · rename_i h20
    split at h
    · rename_i hw
      obtain ⟨r', hr, hr'⟩ := Option.map_eq_some_iff.1 h
      cases hr'
      have := List.find?_some hr
      simp only [beq_iff_eq] at this
      omega
    · cases h
  · split at h
    · split at h <;> cases h
    · split at h
      · split at h <;> cases h
      · cases h

/-- A byte is reached only below `BCAP` (R60, R61). -/
theorem target_byte {prm : Params} {addr w i : Nat} (h : target prm addr w = some (.byte i)) : i < prm.bcap := by
  unfold target targetAt at h
  split at h
  · cases h
  split at h
  · split at h
    · obtain ⟨_, _, h⟩ := Option.map_eq_some_iff.1 h
      cases h
    · cases h
  · split at h
    · split at h
      · simp only [Option.some.injEq, Target.byte.injEq] at h; omega
      · cases h
    · split at h
      · split at h <;> cases h
      · cases h

/-- A word is reached only below `WCAP` (R60, R61). -/
theorem target_word {prm : Params} {addr w i : Nat} (h : target prm addr w = some (.word i)) : i < prm.wcap.words := by
  unfold target targetAt at h
  split at h
  · cases h
  split at h
  · split at h
    · obtain ⟨_, _, h⟩ := Option.map_eq_some_iff.1 h
      cases h
    · cases h
  · split at h
    · split at h <;> cases h
    · split at h
      · split at h
        · simp only [Option.some.injEq, Target.word.injEq] at h; omega
        · cases h
      · cases h

/-- The one inversion of `step`: what a step that answers a next state can have done. -/
theorem step_cases {s t : State} (h : step s = .next t) :
    (s.pending = [] ∧ t = s) ∨
    (∃ rest, s.pending = .reset :: rest ∧ t = s.takeReset) ∨
    (∃ a rest c, s.pending = .access a :: rest ∧ t = (s.take rest).setResponse (some c)) ∨
    (∃ off r v rest, s.pending = .access (.write (s.params.base + off) 32 v) :: rest ∧ off = Reg.offset r ∧
      r ≠ .cmd ∧ t = (s.take rest).writeReg r v) ∨
    (∃ a rest i b, s.pending = .access a :: rest ∧ i < s.bcap ∧ t = (s.take rest).writeB i b) ∨
    (∃ a rest i w, s.pending = .access a :: rest ∧ i < s.wcap ∧ t = (s.take rest).writeW i w) ∨
    (∃ c rest, s.pending = cmdWrite s.params c :: rest ∧ runCommand c (s.take rest) = .next t) := by
  cases hp : s.pending with
  | nil => rw [step_idle hp] at h; cases h; exact .inl ⟨rfl, rfl⟩
  | cons e rest =>
    cases e with
    | reset => simp only [step, nextEffect, hp] at h; cases h; exact .inr (.inl ⟨rest, rfl, rfl⟩)
    | access a =>
      have he : nextEffect s = access a (s.take rest) := by simp only [nextEffect, hp]
      rw [step, he] at h
      rcases access_cases a (s.take rest) with ha | ⟨addr, w, c, rfl, -, ha⟩ | ⟨addr, w, v, c, rfl, ht, ha⟩
      · rw [ha] at h; cases h
      · rw [ha] at h; cases h; exact .inr (.inr (.inl ⟨_, rest, _, rfl, rfl⟩))
      · rw [ha] at h
        cases c with
        | reg r =>
          obtain ⟨rfl, rfl⟩ := target_reg ht
          cases r
          case cmd => exact .inr (.inr (.inr (.inr (.inr (.inr ⟨v, rest, rfl, h⟩)))))
          all_goals
            cases h
            exact .inr (.inr (.inr (.inl ⟨_, _, v, rest, rfl, rfl, by decide, rfl⟩)))
        | byte i => cases h; exact .inr (.inr (.inr (.inr (.inl ⟨_, rest, i, _, rfl, target_byte ht, rfl⟩))))
        | word i =>
          cases h; exact .inr (.inr (.inr (.inr (.inr (.inl ⟨_, rest, i, _, rfl, target_word ht, rfl⟩)))))

end Sys2Proof.Machine
end

