-- ==== Sys2Proof/Laws/PerInstr.lean ====
section
/-! SUPPORT. One statement per command about its encoding: its fields are well formed, its word decodes to it
(30_encoding R72, R73). -/

namespace Sys2Proof.Laws.Encoding

/-- The command's fields are well formed and its word decodes to the command. -/
def Statement (i : Instr) : Prop := i.wf = true ∧ decode (encode i) = .ok i

theorem encw : Statement .encw := ⟨rfl, decode_encode _⟩
theorem decw : Statement .decw := ⟨rfl, decode_encode _⟩
theorem pack : Statement .pack := ⟨rfl, decode_encode _⟩
theorem packl : Statement .packl := ⟨rfl, decode_encode _⟩
theorem unpack : Statement .unpack := ⟨rfl, decode_encode _⟩
theorem unpackl : Statement .unpackl := ⟨rfl, decode_encode _⟩
theorem ldkey : Statement .ldkey := ⟨rfl, decode_encode _⟩
theorem enc : Statement .enc := ⟨rfl, decode_encode _⟩
theorem dec : Statement .dec := ⟨rfl, decode_encode _⟩

end Sys2Proof.Laws.Encoding
end

