-- ==== Sys2Proof/Laws/Works.lean ====
section
/-! SUPPORT. What each command's work leaves, as one record update, and what it does to the buffers: the lemmas the
proofs about single commands and about the composed ones cite. -/

namespace Sys2Proof.Machine

open Sys2Proof.Rules

theorem packBytes_eq (s : State) : packBytes s = { s with wb := (packBytes s).wb } := (packBytes_spec s).2

theorem unpackBytes_eq (n : Nat) (s : State) :
    unpackBytes n s = { s with bb := (unpackBytes n s).bb, blen := BitVec.ofNat 32 n } := (unpackBytes_spec n s).2

/-- Everything `PACK`'s work writes (R122). -/
theorem packWork_eq (s : State) : packWork s =
    { s with wb := (packWork s).wb, wlen := BitVec.ofNat 32 (wordsFor s.byteCount) } := by
  rw [packWork, packBytes_eq]; rfl

/-- Everything `PACKL`'s work writes (R123). -/
theorem packlWork_eq (s : State) : packlWork s =
    { s with wb := (packlWork s).wb, wlen := BitVec.ofNat 32 (wordsFor s.byteCount + 1) } := by
  rw [packlWork, packBytes_eq]; rfl

theorem packWork_readW (s : State) (j : Nat) : (packWork s).readW j =
    if j < wordsFor s.byteCount then packedWord s.readB s.byteCount j else s.readW j := (packBytes_spec s).1 j

theorem packlWork_readW (s : State) (j : Nat) : (packlWork s).readW j =
    if j = wordsFor s.byteCount then s.blen
    else if j < wordsFor s.byteCount then packedWord s.readB s.byteCount j else s.readW j := by
  have h : (packlWork s).readW j = ((packBytes s).writeW (wordsFor s.byteCount) s.blen).readW j := rfl
  rw [h, State.writeW_readW, put, (packBytes_spec s).1 j]

theorem unpackBytes_readB (n : Nat) (s : State) (i : Nat) : (unpackBytes n s).readB i =
    if i < n then Rules.unpackedByte s.readW i else s.readB i := (unpackBytes_spec n s).1 i

/-- `WLEN` after `PACK`, as an integer (R122). -/
theorem packWork_wordCount {s : State} (h : s.byteCount ≤ s.bcap) :
    (packWork s).wordCount = wordsFor s.byteCount := by
  have hw := wordsFor_le h
  have hc := wcap_lt s
  rw [packWork_eq]
  exact (BitVec.toNat_ofNat _ _).trans (Nat.mod_eq_of_lt (by omega))

/-- `WLEN` after `PACKL`, as an integer (R123). -/
theorem packlWork_wordCount {s : State} (h : s.byteCount ≤ s.bcap - 4) :
    (packlWork s).wordCount = wordsFor s.byteCount + 1 := by
  have hw := wordsFor_lt h
  have hc := wcap_lt s
  rw [packlWork_eq]
  exact (BitVec.toNat_ofNat _ _).trans (Nat.mod_eq_of_lt (by omega))

/-- `BLEN` after unpacking `n` bytes, as an integer (R126, R127). -/
theorem unpackBytes_byteCount {n : Nat} {s : State} (h : n ≤ s.bcap) : (unpackBytes n s).byteCount = n := by
  have hc := bcap_lt s
  rw [unpackBytes_eq]
  exact (BitVec.toNat_ofNat _ _).trans (Nat.mod_eq_of_lt (by omega))

/-- What `UNPACKL` may write once its argument check has passed. -/
theorem unpacklRun_frame (s : State) :
    ∃ bb blen st, unpacklRun s = { s with bb := bb, blen := blen, status := st } := by
  rcases unpacklRun_cases s with ⟨-, h⟩ | ⟨-, h⟩ <;> rw [h]
  · rw [unpackBytes_eq]; exact ⟨_, _, _, rfl⟩
  · exact ⟨_, _, _, rfl⟩

theorem unpacklRun_status (s : State) : (unpacklRun s).status = 1 ∨ (unpacklRun s).status = 7 := by
  rcases unpacklRun_cases s with ⟨-, h⟩ | ⟨-, h⟩ <;> rw [h]
  · exact .inl rfl
  · exact .inr rfl

/-- The outcome of a command whose arguments were accepted (R166). -/
theorem work_status (i : Instr) (s : State) :
    (work i s).status = 1 ∨ ((i = .unpackl ∨ i = .dec) ∧ (work i s).status = 7) := by
  cases i
  case unpackl => exact (unpacklRun_status s).imp id fun h => ⟨.inl rfl, h⟩
  case dec => exact (unpacklRun_status (decBlock (packWork s))).imp id fun h => ⟨.inr rfl, h⟩
  all_goals exact .inl rfl

/-- The length an accepted range test lets through fits the byte buffer (R66, R127). -/
theorem embeddedLength_le {s : State} (hle : s.wordCount ≤ s.wcap) (h : s.lengthOk = true) :
    s.embeddedLength ≤ s.bcap := by
  rw [State.lengthOk, Bool.and_eq_true, decide_eq_true_eq, decide_eq_true_eq] at h
  have hd := h.2
  have hc : s.bcap = 4 * s.wcap := rfl
  simp only [State.dataBytes] at hd
  omega

/-- The part of the engine's soundness that is not about `STATUS`. -/
structure State.Buffers (s : State) : Prop where
  bb_wf    : Memory.wf s.bb = true
  wb_wf    : Memory.wf s.wb = true
  bb_below : Memory.below s.bcap s.bb = true
  wb_below : Memory.below s.wcap s.wb = true
  rnd_zero : s.rnd = 0
  p_below  : s.p < s.wcap

theorem State.inv_iff {s : State} : s.Inv ↔ s.Buffers ∧ statusLegal s.status = true :=
  ⟨fun h => ⟨⟨h.bb_wf, h.wb_wf, h.bb_below, h.wb_below, h.rnd_zero, h.p_below⟩, h.status_ok⟩,
    fun h => ⟨h.1.bb_wf, h.1.wb_wf, h.1.bb_below, h.1.wb_below, h.2, h.1.rnd_zero, h.1.p_below⟩⟩

theorem State.Buffers.setStatus {s : State} (h : s.Buffers) (v : Word) : (s.setStatus v).Buffers :=
  ⟨h.bb_wf, h.wb_wf, h.bb_below, h.wb_below, h.rnd_zero, h.p_below⟩

theorem State.Buffers.setBlen {s : State} (h : s.Buffers) (v : Word) : (s.setBlen v).Buffers :=
  ⟨h.bb_wf, h.wb_wf, h.bb_below, h.wb_below, h.rnd_zero, h.p_below⟩

theorem State.Buffers.setKey {s : State} (h : s.Buffers) (v : KeyRegs) : (s.setKey v).Buffers :=
  ⟨h.bb_wf, h.wb_wf, h.bb_below, h.wb_below, h.rnd_zero, h.p_below⟩

theorem encBlock_buffers {s : State} (hle : s.wordCount ≤ s.wcap) (h : s.Buffers) : (encBlock s).Buffers := by
  rcases Nat.lt_or_ge s.wordCount 2 with h2 | h2
  · rw [encBlock_short h2]; exact h
  have f := encBlock_frame s
  have w := encBlock_wb hle h.wb_wf h.wb_below
  have i := encBlock_internal s h2
  refine ⟨by rw [f.bb]; exact h.bb_wf, w.1, ?_, by rw [f.wcap]; exact w.2, i.2.1, by rw [f.wcap, i.2.2]; omega⟩
  rw [show (encBlock s).bcap = s.bcap by simp only [State.bcap, f.params], f.bb]
  exact h.bb_below

theorem decBlock_buffers {s : State} (hle : s.wordCount ≤ s.wcap) (h : s.Buffers) : (decBlock s).Buffers := by
  rcases Nat.lt_or_ge s.wordCount 2 with h2 | h2
  · rw [decBlock_short h2]; exact h
  have f := decBlock_frame s
  have w := decBlock_wb hle h.wb_wf h.wb_below
  have i := decBlock_internal s h2
  refine ⟨by rw [f.bb]; exact h.bb_wf, w.1, ?_, by rw [f.wcap]; exact w.2, i.2.1, by rw [f.wcap, i.2.2]; omega⟩
  rw [show (decBlock s).bcap = s.bcap by simp only [State.bcap, f.params], f.bb]
  exact h.bb_below

theorem packWork_buffers {s : State} (hle : s.byteCount ≤ s.bcap) (h : s.Buffers) : (packWork s).Buffers := by
  have w := packBytes_wb hle h.wb_wf h.wb_below
  rw [packWork_eq]
  exact ⟨h.bb_wf, w.1, h.bb_below, w.2, h.rnd_zero, h.p_below⟩

theorem packlWork_buffers {s : State} (hle : s.byteCount ≤ s.bcap - 4) (h : s.Buffers) : (packlWork s).Buffers := by
  have w := packBytes_wb (by omega) h.wb_wf h.wb_below
  rw [packlWork_eq]
  exact ⟨h.bb_wf, Memory.wf_set _ _ w.1, h.bb_below, Memory.below_set _ (wordsFor_lt hle) w.2, h.rnd_zero, h.p_below⟩

theorem unpackBytes_buffers {s : State} {n : Nat} (hle : n ≤ s.bcap) (h : s.Buffers) :
    (unpackBytes n s).Buffers := by
  have w := unpackBytes_bb hle h.bb_wf h.bb_below
  rw [unpackBytes_eq]
  exact ⟨w.1, h.wb_wf, w.2, h.wb_below, h.rnd_zero, h.p_below⟩

theorem unpacklRun_buffers {s : State} (hle : s.wordCount ≤ s.wcap) (h : s.Buffers) : (unpacklRun s).Buffers := by
  rcases unpacklRun_cases s with ⟨hl, e⟩ | ⟨-, e⟩ <;> rw [e]
  · exact (unpackBytes_buffers (embeddedLength_le hle hl) h).setStatus 1
  · exact (h.setBlen 0).setStatus 7

/-- `PACK`'s block fits the word buffer (R66). -/
theorem packWork_fits {s : State} (hle : s.byteCount ≤ s.bcap) :
    (packWork s).wordCount ≤ (packWork s).wcap := by
  rw [packWork_wordCount hle, show (packWork s).wcap = s.wcap by rw [packWork_eq]; rfl]
  exact wordsFor_le hle

/-- `PACKL`'s block fits the word buffer (R66). -/
theorem packlWork_fits {s : State} (hle : s.byteCount ≤ s.bcap - 4) :
    (packlWork s).wordCount ≤ (packlWork s).wcap := by
  rw [packlWork_wordCount hle, show (packlWork s).wcap = s.wcap by rw [packlWork_eq]; rfl]
  exact wordsFor_lt hle

end Sys2Proof.Machine
end

