-- ==== Sys2Proof/Tests/Slice0.lean ====
section
/-! SUPPORT. The model's own tests: the well-formedness checks, every command word written out, values from
95_test_vectors.md, and for each statement with hypotheses a concrete state and operands that meet them. -/

namespace Sys2Proof.Tests

open Sys2Proof.Machine Sys2Proof.Rules

/-- The state after reset with given lengths, key and buffer contents from index 0 up. -/
def mk (blen wlen : Word) (key : KeyRegs) (bytes : List Byte) (words : List Word) : State :=
  { State.reset with
    blen := blen, wlen := wlen, key := key
    bb := bytes.mapIdx fun i b => (i, b)
    wb := words.mapIdx fun i w => (i, w) }

/-- The state after reset with given lengths. -/
def lens (blen wlen : Word) : State := { State.reset with blen := blen, wlen := wlen }

/-- The state after reset with one host event pending. -/
def one (e : HostEvent) : State := { State.reset with pending := [e] }

/-- A property of the next state. -/
def ends (o : Host.Outcome State Fault Refusal) (f : State → Bool) : Bool :=
  match o with
  | .next t => f t
  | .fault _ => false
  | .refused _ => false

/-- The outcome is a host access fault. -/
def faults (o : Host.Outcome State Fault Refusal) : Bool :=
  match o with
  | .next _ => false
  | .fault (.hostAccess _) => true
  | .refused _ => false

def bytesOf (l : List Byte) : List Host.Cell := l.mapIdx fun i b => (i, b)
def wordsOf (l : List Word) : List (Nat × Word) := l.mapIdx fun i w => (i, w)

/-- The all-zero key. -/
def Z : KeyRegs := ⟨0, 0, 0, 0⟩

/-- The key `K*` of 95_test_vectors. -/
def K : KeyRegs := ⟨0x03020100, 0x07060504, 0x0B0A0908, 0x0F0E0D0C⟩

/-- Sixteen key bytes, and fifteen of them with a zero byte after. -/
def key16 : List Byte := [1, 2, 3, 4, 5, 6, 7, 8, 9, 10, 11, 12, 13, 14, 15, 16]
def key15 : List Byte := [1, 2, 3, 4, 5, 6, 7, 8, 9, 10, 11, 12, 13, 14, 15, 0]

/-! ## Well-formedness: an ill-formed term for each check (R70, R74) -/

theorem test_wf_refuses_reserved_bits : (⟨1, 0, 6⟩ : CmdFields).reservedClear = false ∧
    (⟨1, 0, 6⟩ : CmdFields).wf = false := by decide
theorem test_wf_refuses_op_zero : (⟨0, 0, 0⟩ : CmdFields).opNamed = false ∧ (⟨0, 0, 0⟩ : CmdFields).wf = false := by
  decide
theorem test_wf_refuses_op_eight : (⟨0, 0, 8⟩ : CmdFields).opNamed = false ∧ (⟨0, 0, 8⟩ : CmdFields).wf = false := by
  decide
theorem test_wf_refuses_length_flag : (⟨0, 1, 6⟩ : CmdFields).lenFlagAllowed = false ∧
    (⟨0, 1, 6⟩ : CmdFields).wf = false := by decide

/-! ## Decoding: every row of the command table, bit by bit (R73, opcode_table.json) -/

theorem test_decode_encw : decode 0b00000000000000000000000000000001 = .ok .encw := by decide
theorem test_decode_decw : decode 0b00000000000000000000000000000010 = .ok .decw := by decide
theorem test_decode_pack : decode 0b00000000000000000000000000000011 = .ok .pack := by decide
theorem test_decode_packl : decode 0b00000000000000000000000000010011 = .ok .packl := by decide
theorem test_decode_unpack : decode 0b00000000000000000000000000000100 = .ok .unpack := by decide
theorem test_decode_unpackl : decode 0b00000000000000000000000000010100 = .ok .unpackl := by decide
theorem test_decode_ldkey : decode 0b00000000000000000000000000000101 = .ok .ldkey := by decide
theorem test_decode_enc : decode 0b00000000000000000000000000000110 = .ok .enc := by decide
theorem test_decode_dec : decode 0b00000000000000000000000000000111 = .ok .dec := by decide
/-- V70: illegal words, one for each reason. -/
theorem test_decode_illegal : decode 0 = .error .unnamedOp ∧ decode 0x0F = .error .unnamedOp ∧
    decode 0x17 = .error .lenFlag ∧ decode 0x21 = .error .reservedBits ∧ decode 0x80000006 = .error .reservedBits := by
  decide
theorem test_decodeTableWord : decodeTableWord 32 0x13 = some .packl ∧ decodeTableWord 32 0 = none := by decide

/-! ## The commands (95_test_vectors) -/

/-- V8. -/
theorem test_mx_V8 : mx 0xC6EF3720 0xDEADBEEF 0x0BADF00D 7 0 K = 0x0710CD99 := by decide
/-- V25, last row: published known answer. -/
theorem test_encw_V25 : ends (exec .encw (mk 0 2 ⟨0x08040201, 0x80402010, 0xF8FCFEFF, 0x80C0E0F0⟩ []
    [0xF8FCFEFF, 0x80C0E0F0])) (fun t => t.wb == wordsOf [0xC007378C, 0xC4CC7F1C] && t.status == 1) = true := by
  decide +kernel
/-- V24 row e: five words, key indices reused, one cell beyond the block. -/
theorem test_encw_V24e : ends (exec .encw (mk 0 5 K [] [1, 2, 3, 4, 5, 0xDEADBEEF]))
    (fun t => t.wb == wordsOf [0x87C5A7C0, 0xE30C0675, 0x260DF37B, 0xB9CBF807, 0xA3F7E127, 0xDEADBEEF]) = true := by
  decide +kernel
/-- V28: a block that is no ciphertext. -/
theorem test_decw_V28 : ends (exec .decw (mk 0 3 K [] [0, 0, 0]))
    (fun t => t.wb == wordsOf [0x16A81096, 0x9277DA39, 0x4D2BCD81] && t.sum == 0 && t.rnd == 0 && t.p == 2) = true := by
  decide +kernel
/-- V27: `WLEN = 1025`. -/
theorem test_decw_V27 : exec .decw (lens 0 1025) = .next { lens 0 1025 with status := 5 } := by rfl
/-- V30 row 6, over words that held something else. -/
theorem test_pack_V30 : ends (exec .pack (mk 5 9 Z [0x41, 0x42, 0x43, 0x44, 0x45] [0xFFFFFFFF, 0xFFFFFFFF, 7]))
    (fun t => t.wb == wordsOf [0x44434241, 0x00000045, 7] && t.wlen == 2) = true := by decide +kernel
/-- V32: `BLEN = 4097`. -/
theorem test_pack_V32 : exec .pack (lens 4097 0) = .next { lens 4097 0 with status := 5 } := by rfl
/-- V30 row 8: no sign extension. -/
theorem test_packl_V30 : ends (exec .packl (mk 6 0 Z [0xFF, 0x00, 0x80, 0x01, 0x7F, 0xFE] []))
    (fun t => t.wb == wordsOf [0x018000FF, 0x0000FE7F, 6] && t.wlen == 3) = true := by decide +kernel
/-- V32: `BLEN = 4093`. -/
theorem test_packl_V32 : exec .packl (lens 4093 0) = .next { lens 4093 0 with status := 5 } := by rfl
/-- V31 row 2. -/
theorem test_unpack_V31 : ends (exec .unpack (mk 0 1 Z [9, 9, 9, 9, 9] [0x80FF0001]))
    (fun t => t.bb == bytesOf [0x01, 0x00, 0xFF, 0x80, 9] && t.blen == 4) = true := by decide +kernel
/-- V31 row 9: pad bytes ignored. -/
theorem test_unpackl_V31_row9 : ends (exec .unpackl (mk 0 3 Z [] [0x44434241, 0xAABBCC45, 5]))
    (fun t => t.bb == bytesOf [0x41, 0x42, 0x43, 0x44, 0x45] && t.blen == 5 && t.status == 1) = true := by
  decide +kernel
/-- V31 row 16: the length is unsigned. -/
theorem test_unpackl_V31_row16 : ends (exec .unpackl (mk 3 1 Z [] [0xFFFFFFFF]))
    (fun t => t.status == 7 && t.blen == 0 && t.bb == []) = true := by decide +kernel
/-- V50 row 4. -/
theorem test_ldkey_V50_row4 : ends (exec .ldkey (mk 15 0 Z [1, 2, 3, 4, 5, 6, 7, 8, 9, 10, 11, 12, 13, 14, 15, 0xEE] []))
    (fun t => t.key == ⟨0x04030201, 0x08070605, 0x0C0B0A09, 0x000F0E0D⟩) = true := by decide +kernel
/-- V50 row 6: bytes beyond the sixteenth are ignored. -/
theorem test_ldkey_V50_row6 : ends (exec .ldkey (mk 20 0 Z [0x10, 0x11, 0x12, 0x13, 0x14, 0x15, 0x16, 0x17, 0x18, 0x19,
    0x1A, 0x1B, 0x1C, 0x1D, 0x1E, 0x1F, 0x20, 0x21, 0x22, 0x23] []))
    (fun t => t.key == ⟨0x13121110, 0x17161514, 0x1B1A1918, 0x1F1E1D1C⟩) = true := by decide +kernel
/-- V60. -/
theorem test_enc_V60 : ends (exec .enc (mk 5 0 Z [0x41, 0x42, 0x43, 0x44, 0x45] []))
    (fun t => t.bb == bytesOf [0x9B, 0x12, 0x40, 0x64, 0xCE, 0x68, 0xBE, 0x8B, 0x0E, 0x9E, 0x3C, 0xDE] &&
      t.blen == 12 && t.wlen == 3 && t.wb == wordsOf [0x6440129B, 0x8BBE68CE, 0xDE3C9E0E]) = true := by decide +kernel
/-- V64: `BLEN = 0`. -/
theorem test_enc_V64 : exec .enc State.reset = .next { State.reset with status := 5 } := by rfl
/-- V61, with the stale ciphertext bytes. -/
theorem test_dec_V61 : ends (exec .dec (mk 12 0 Z [0x9B, 0x12, 0x40, 0x64, 0xCE, 0x68, 0xBE, 0x8B, 0x0E, 0x9E, 0x3C, 0xDE] []))
    (fun t => t.bb == bytesOf [0x41, 0x42, 0x43, 0x44, 0x45, 0x68, 0xBE, 0x8B, 0x0E, 0x9E, 0x3C, 0xDE] &&
      t.blen == 5 && t.status == 1) = true := by decide +kernel
/-- V63 row 1. -/
theorem test_dec_V63 : ends (exec .dec (mk 12 0 Z [0x9B, 0x12, 0x40, 0x64, 0xCE, 0x68, 0xBE, 0x8B, 0x0E, 0x9E, 0x3C, 0xDF] []))
    (fun t => t.wb == wordsOf [0xA1D69304, 0x149969DE, 0xE3C2AB52] && t.blen == 0 && t.status == 7 && t.wlen == 3) =
    true := by decide +kernel

/-! ## Host accesses and steps -/

/-- V70: `ENCW` right after reset. -/
theorem test_step_encw : step (State.reset.withFetchWord 32 1) = .next { State.reset with status := 1 } := by rfl
/-- V70: an illegal word right after reset. -/
theorem test_step_illegal : step (State.reset.withFetchWord 32 0x16) = .next { State.reset with status := 3 } := by rfl
/-- R61: offset `0x20` is unmapped. -/
theorem test_step_unmapped : faults (step (one (.access (.read 0x20 32)))) = true := by rfl
/-- R53: BB takes 8-bit accesses only. -/
theorem test_step_width : faults (step (one (.access (.write 0x01000000 32 1)))) = true := by rfl
/-- R53: WB offsets are multiples of 4. -/
theorem test_step_misaligned : faults (step (one (.access (.read 0x02000002 32)))) = true := by rfl
/-- R60: the last cells of both windows, `WCAP = 1024`. -/
theorem test_step_last_cells : ends (step (one (.access (.write 0x01000FFF 8 0x1FF)))) (fun t => t.bb == [(4095, 0xFF)]) = true ∧
    ends (step (one (.access (.write 0x02000FFC 32 7)))) (fun t => t.wb == [(1023, 7)]) = true ∧
    faults (step (one (.access (.write 0x02001000 32 7)))) = true := by decide
/-- R56: a read returns the register and changes nothing. -/
theorem test_step_read : step { one (.access (.read 0x10 32)) with key := K } =
    .next { State.reset with key := K, response := some (.word 0x03020100) } := by rfl
/-- R25: a write to `STATUS` is ignored. -/
theorem test_step_status_write : step { one (.access (.write 0x04 32 0xFFFFFFFF)) with status := 3 } =
    .next { State.reset with status := 3 } := by rfl
/-- R180: reset clears the key and the known buffer contents. -/
theorem test_step_reset : step { mk 5 1 K [1] [2] with pending := [.reset], status := 7 } =
    .next { State.reset with gen := 1 } := by rfl

/-! ## Witnesses: for each statement with hypotheses, states and operands that meet them, each clause at the ends of
its range (`WCAP = 1024`, `BCAP = 4096` after reset) -/

/-- R90: `DELTA` as the rule also prints it, in decimal. -/
theorem test_delta : delta.toNat = 2654435769 := by decide

/-- An engine with the smallest `WCAP`, at a base address that is not 0. -/
def small : State := { State.reset with params := ⟨⟨2, by decide, by decide⟩, 0x40000000⟩ }

/-- Log entry 2: the address just below `BASE` is unmapped; `BASE` itself is `CMD`. -/
theorem test_step_below_base :
    faults (step { small with pending := [.access (.read 0x3FFFFFFF 8)] }) = true ∧
    ends (step { small with pending := [.access (.read 0x40000000 32)] }) (fun t => t.response == some (.word 0)) = true := by
  decide

theorem witness_IllegalWordOnlySetsErrCmd :
    illegalWord 0 ∧ illegalWord 8 ∧ illegalWord 15 ∧ illegalWord 0x12 ∧ illegalWord 0x15 ∧ illegalWord 0x17 ∧
    illegalWord 0x21 ∧ illegalWord 0x80000006 := by
  refine ⟨?_, ?_, ?_, ?_, ?_, ?_, ?_, ?_⟩ <;> decide
theorem witness_StepRunsTheDecodedCommand :
    (∃ rest, { small with pending := [cmdWrite small.params 6, .reset] }.pending =
      .access (.write (small.params.base + 0x00) 32 6) :: rest) ∧ decode 6 = .ok .enc ∧ illegalWord 0x16 :=
  ⟨⟨[.reset], rfl⟩, by decide, by decide⟩
theorem witness_HostAccessesReadAndStore :
    ((0x1C, small.key.k3) ∈ [(0x00, (0 : Word)), (0x1C, small.key.k3)]) ∧ 0 < small.bcap ∧ 7 < small.bcap ∧
    0 < small.wcap ∧ 1 < small.wcap ∧
    { small with pending := [.access (.read (small.params.base + (0x01000000 + 7)) 8)] }.pending =
      [.access (.read (small.params.base + (0x01000000 + 7)) 8)] ∧ decode 7 = .ok .dec := by decide
theorem witness_HostAccessFaultsExactlyOffTheMap :
    (∀ a ∈ [(0x00, 32), (0x1C, 32), (0x01000000, 8), (0x01000FFF, 8), (0x02000000, 32), (0x02000FFC, 32)],
      onMap State.reset.params a.1 a.2) ∧
    (∀ a ∈ [(0x00, 8), (0x02, 32), (0x1F, 32), (0x20, 32), (0x00FFFFFF, 8), (0x01000000, 32), (0x01001000, 8),
        (0x01FFFFFF, 8), (0x02000002, 32), (0x02000000, 8), (0x02001000, 32)],
      ¬ onMap State.reset.params a.1 a.2) ∧
    0 < small.params.base ∧ 0x3FFFFFFF < small.params.base ∧
    0x40000000 = small.params.base + 0 ∧ onMap small.params 0 32 := by decide
theorem witness_ResetZeroesRegistersAndForgetsBuffers :
    ∃ s, step { mk 5 1 K [1] [2] with pending := [.reset, .reset], status := 7 } = .next s := ⟨_, rfl⟩
theorem witness_ArgErrorExactlyPerTable :
    (∀ i ∈ [Instr.encw, .decw], argError i (lens 0 0) = false ∧ argError i (lens 0 1024) = false ∧
      argError i (lens 0 1025) = true) ∧
    (∀ i ∈ [Instr.pack, .ldkey, .dec], argError i (lens 0 0) = true ∧ argError i (lens 1 0) = false ∧
      argError i (lens 4096 0) = false ∧ argError i (lens 4097 0) = true) ∧
    (∀ i ∈ [Instr.packl, .enc], argError i (lens 0 0) = true ∧ argError i (lens 1 0) = false ∧
      argError i (lens 4092 0) = false ∧ argError i (lens 4093 0) = true) ∧
    (∀ i ∈ [Instr.unpack, .unpackl], argError i (lens 0 0) = true ∧ argError i (lens 0 1) = false ∧
      argError i (lens 0 1024) = false ∧ argError i (lens 0 1025) = true) := by decide
/-- A one-word block whose word is 1: `nb = 0`, so `L = 1` is refused; `DEC` of the one byte 1 comes to the same. -/
theorem witness_LengthErrorLeavesEmptyResult :
    argError .unpackl (mk 3 1 Z [] [1]) = false ∧ ¬ lengthAccepted 1 (lastWord (mk 3 1 Z [] [1])) ∧
    argError .dec (mk 1 0 Z [1] []) = false ∧
    ends (exec .pack (mk 1 0 Z [1] [])) (fun a => ends (exec .decw a)
      (fun b => decide (¬ lengthAccepted b.wlen.toNat (lastWord b)))) = true := by decide
theorem witness_ErrorsAreFoundInOrder :
    illegalWord 0 ∧ decode 0x14 = .ok .unpackl ∧ argError .unpackl State.reset = true ∧ State.reset.wlen = 0 ∧
    ends (exec .unpackl (mk 3 1 Z [] [1])) (fun t => t.err == 3) = true ∧
    ends (exec .dec (mk 1 0 Z [1] [])) (fun t => t.err == 3) = true := by decide
theorem witness_EveryCommandEndsByWritingStatus :
    (State.reset.withFetchWord 32 0xFFFFFFFF).pending = [cmdWrite State.reset.params 0xFFFFFFFF] := by rfl
theorem witness_StatusChangesOnlyByCommandOrReset :
    ends (step (State.reset.withFetchWord 32 1)) (fun t => t.status != (State.reset.withFetchWord 32 1).status) = true ∧
    ends (step { one .reset with status := 1 }) (fun t => t.status != 1) = true := by decide
theorem witness_KeyChangesOnlyByKeyWriteLdkeyOrReset :
    ends (step { one .reset with key := K }) (fun t => t.key != K) = true ∧
    ends (step (one (.access (.write 0x1C 32 1)))) (fun t => t.key != Z) = true ∧
    ends (step ((mk 1 0 Z [1] []).withFetchWord 32 5)) (fun t => t.key != Z) = true := by decide
theorem witness_RoundCountPerTable :
    2 ≤ 2 ∧ 53 ≤ 53 ∧ (27 ≤ 52 ∧ 52 ≤ 52) ∧ (18 ≤ 26 ∧ 26 ≤ 26) ∧ (14 ≤ 17 ∧ 17 ≤ 17) ∧ (11 ≤ 13 ∧ 13 ≤ 13) := by decide
theorem witness_SequencerRunsOnSchedule :
    2 ≤ (lens 0 2).wlen.toNat ∧ 31 < rounds (lens 0 2).wlen.toNat ∧ 1 < (lens 0 2).wlen.toNat := by decide
theorem witness_EncwEncryptsTheBlock :
    (lens 0 1025).wcap < (lens 0 1025).wlen.toNat ∧ (lens 0 1024).wlen.toNat ≤ (lens 0 1024).wcap ∧
    1023 < (lens 0 1024).wlen.toNat ∧ (lens 0 1024).wlen.toNat ≤ 1024 ∧ (lens 0 0).wlen.toNat ≤ (lens 0 0).wcap := by decide
theorem witness_DecwDecryptsTheBlock :
    (lens 0 0xFFFFFFFF).wcap < (lens 0 0xFFFFFFFF).wlen.toNat ∧ (lens 0 2).wlen.toNat ≤ (lens 0 2).wcap ∧
    1 < (lens 0 2).wlen.toNat ∧ (lens 0 2).wlen.toNat ≤ 2 := by decide
theorem witness_InternalRegistersAfterTransform :
    (2 ≤ (lens 0 2).wlen.toNat ∧ (lens 0 2).wlen.toNat ≤ (lens 0 2).wcap) ∧
    (2 ≤ (lens 0 1024).wlen.toNat ∧ (lens 0 1024).wlen.toNat ≤ (lens 0 1024).wcap) ∧
    (lens 0 1).wlen.toNat < 2 ∧ (lens 0 1025).wcap < (lens 0 1025).wlen.toNat := by decide
theorem witness_ShortBlocksAreLeftUnchanged : (lens 0 0).wlen.toNat < 2 ∧ (lens 0 1).wlen.toNat < 2 := by decide
theorem witness_TransformsAreInverse :
    (2 ≤ (lens 0 2).wlen.toNat ∧ (lens 0 2).wlen.toNat ≤ (lens 0 2).wcap) ∧
    (2 ≤ (lens 0 1024).wlen.toNat ∧ (lens 0 1024).wlen.toNat ≤ (lens 0 1024).wcap) := by decide
/-- Two engines that differ in every other register and in the cells beyond the block. -/
theorem witness_TransformDependsOnlyOnItsOperands :
    (mk 0 2 K [] [7, 8]).wlen = ({ mk 9 2 K [1] [7, 8, 9] with status := 5, sum := 1 } : State).wlen ∧
    (mk 0 2 K [] [7, 8]).key = ({ mk 9 2 K [1] [7, 8, 9] with status := 5, sum := 1 } : State).key ∧
    (∀ i, i < 2 → (mk 0 2 K [] [7, 8]).readW i = ({ mk 9 2 K [1] [7, 8, 9] with status := 5, sum := 1 } : State).readW i) ∧
    (mk 0 2 K [] [7, 8]).wlen.toNat ≤ (mk 0 2 K [] [7, 8]).wcap := by decide
theorem witness_PackPacksLittleEndian :
    (lens 0 0).blen.toNat = 0 ∧ (lens 4097 0).bcap < (lens 4097 0).blen.toNat ∧
    (∀ s ∈ [lens 1 0, lens 4096 0], 1 ≤ s.blen.toNat ∧ s.blen.toNat ≤ s.bcap) := by decide
theorem witness_PacklAppendsTheLengthWord :
    (lens 0 0).blen.toNat = 0 ∧ (lens 4093 0).bcap - 4 < (lens 4093 0).blen.toNat ∧
    (∀ s ∈ [lens 1 0, lens 4092 0, { small with blen := 4 }], 1 ≤ s.blen.toNat ∧ s.blen.toNat ≤ s.bcap - 4) := by decide
theorem witness_UnpackUnpacksLittleEndian :
    (lens 0 0).wlen.toNat = 0 ∧ (lens 0 1025).wcap < (lens 0 1025).wlen.toNat ∧
    (∀ s ∈ [lens 0 1, lens 0 1024], 1 ≤ s.wlen.toNat ∧ s.wlen.toNat ≤ s.wcap) := by decide
/-- The accepted lengths of a three-word block are 5 to 8, that of a one-word block is 0 (R127, V31). -/
theorem witness_UnpacklChecksThenUnpacks :
    (mk 0 0 Z [] []).wlen.toNat = 0 ∧ (lens 0 1025).wcap < (lens 0 1025).wlen.toNat ∧
    1 ≤ (mk 0 3 Z [] [1, 2, 5]).wlen.toNat ∧ (mk 0 3 Z [] [1, 2, 5]).wlen.toNat ≤ (mk 0 3 Z [] [1, 2, 5]).wcap ∧
    lengthAccepted 3 (lastWord (mk 0 3 Z [] [1, 2, 5])) ∧ lengthAccepted 3 (lastWord (mk 0 3 Z [] [1, 2, 8])) ∧
    ¬ lengthAccepted 3 (lastWord (mk 0 3 Z [] [1, 2, 4])) ∧ ¬ lengthAccepted 3 (lastWord (mk 0 3 Z [] [1, 2, 9])) ∧
    lengthAccepted 1 (lastWord (mk 0 1 Z [] [0])) ∧ ¬ lengthAccepted 1 (lastWord (mk 0 1 Z [] [0xFFFFFFFF])) := by
  decide
theorem witness_RangeTestAcceptsExactlyPackableLengths :
    (∀ s ∈ [lens 0 1, lens 0 1024], 1 ≤ s.wlen.toNat ∧ s.wlen.toNat ≤ s.wcap) ∧
    ends (exec .unpackl (mk 0 2 Z [] [7, 1])) (fun t => t.status == 1) = true := by decide
theorem witness_CodecRoundTrips :
    (∀ s ∈ [lens 1 0, lens 4092 0], 1 ≤ s.blen.toNat ∧ s.blen.toNat ≤ s.bcap - 4) ∧
    (∀ s ∈ [lens 1 0, lens 4096 0], 1 ≤ s.blen.toNat ∧ s.blen.toNat ≤ s.bcap) ∧
    (∀ s ∈ [lens 0 1, lens 0 1024], 1 ≤ s.wlen.toNat ∧ s.wlen.toNat ≤ s.wcap) := by decide
/-- Two two-word blocks of length 3 that differ in the pad byte. -/
theorem witness_PadBytesAreNotLookedAt :
    (mk 0 2 Z [] [0x00030201, 3]).wlen = (mk 0 2 Z [] [0xFF030201, 3]).wlen ∧
    1 ≤ (mk 0 2 Z [] [0x00030201, 3]).wlen.toNat ∧
    lastWord (mk 0 2 Z [] [0x00030201, 3]) = lastWord (mk 0 2 Z [] [0xFF030201, 3]) ∧
    lengthAccepted 2 (lastWord (mk 0 2 Z [] [0x00030201, 3])) ∧
    (∀ i, i < 3 → Rules.unpackedByte (mk 0 2 Z [] [0x00030201, 3]).readW i =
      Rules.unpackedByte (mk 0 2 Z [] [0xFF030201, 3]).readW i) := by decide
theorem witness_CiphertextLengthIsFixedByDataLength :
    ∀ s ∈ [lens 1 0, lens 4092 0], 1 ≤ s.blen.toNat ∧ s.blen.toNat ≤ s.bcap - 4 := by decide
theorem witness_LdkeyLoadsTheNormalisedKey :
    (lens 0 0).blen.toNat = 0 ∧ (lens 4097 0).bcap < (lens 4097 0).blen.toNat ∧
    (∀ s ∈ [lens 1 0, lens 16 0, lens 4096 0], 1 ≤ s.blen.toNat ∧ s.blen.toNat ≤ s.bcap) := by decide
/-- Fifteen key bytes against the same and a zero byte; seventeen against the first sixteen. -/
theorem witness_PaddedAndTruncatedKeysLoadAlike :
    (1 ≤ (mk 15 0 Z key16 []).blen.toNat ∧ (mk 15 0 Z key16 []).blen.toNat < 16 ∧
      (mk 15 0 Z key16 []).blen.toNat ≤ (mk 15 0 Z key16 []).bcap ∧ (mk 16 0 Z key15 []).blen = 16 ∧
      16 ≤ (mk 16 0 Z key15 []).bcap ∧ (∀ i, i < 15 → (mk 16 0 Z key15 []).readB i = (mk 15 0 Z key16 []).readB i) ∧
      (mk 16 0 Z key15 []).readB 15 = 0) ∧
    (16 < (mk 17 0 Z (key16 ++ [0x77]) []).blen.toNat ∧ (mk 16 0 Z key16 []).blen = 16 ∧
      (∀ i, i < 16 → (mk 16 0 Z key16 []).readB i = (mk 17 0 Z (key16 ++ [0x77]) []).readB i)) := by decide
theorem witness_DirectKeyWritesEqualLdkey :
    (mk 16 0 Z key16 []).blen = 16 ∧ 16 ≤ (mk 16 0 Z key16 []).bcap ∧
    (∀ i, i < 16 → (mk 16 0 Z key16 []).readB i =
      Rules.unpackedByte (fun j => [0x04030201#32, 0x08070605, 0x0C0B0A09, 0x100F0E0D].getD j 0) i) := by decide
theorem witness_ComposedCommandsAreTheirThreeStages :
    (∀ s ∈ [lens 1 0, lens 4092 0], 1 ≤ s.blen.toNat ∧ s.blen.toNat ≤ s.bcap - 4) ∧
    (∀ s ∈ [lens 1 0, lens 4096 0], 1 ≤ s.blen.toNat ∧ s.blen.toNat ≤ s.bcap) := by decide
theorem witness_EncEncryptsTheByteBuffer :
    (lens 0 0).blen.toNat = 0 ∧ (lens 4093 0).bcap - 4 < (lens 4093 0).blen.toNat ∧
    (∀ s ∈ [lens 1 0, lens 4092 0], 1 ≤ s.blen.toNat ∧ s.blen.toNat ≤ s.bcap - 4) := by decide
/-- `DEC` of the one byte 0 is accepted with length 0, of the one byte 1 refused: a one-word block is not mixed. -/
theorem witness_DecDecryptsTheByteBuffer :
    (lens 0 0).blen.toNat = 0 ∧ (lens 4097 0).bcap < (lens 4097 0).blen.toNat ∧
    (∀ s ∈ [lens 1 0, lens 4096 0], 1 ≤ s.blen.toNat ∧ s.blen.toNat ≤ s.bcap) ∧
    lengthAccepted 1 (decLength (mk 1 0 Z [0] [])) ∧ ¬ lengthAccepted 1 (decLength (mk 1 0 Z [1] [])) := by decide
theorem witness_EncThenDecRestoresTheBytes :
    ∀ s ∈ [lens 1 0, lens 4092 0], 1 ≤ s.blen.toNat ∧ s.blen.toNat ≤ s.bcap - 4 := by decide
/-- Two engines that hold the same data and key and differ in everything else. -/
theorem witness_CiphertextDependsOnlyOnDataAndKey :
    (mk 2 0 K [7, 8] []).blen = ({ mk 2 9 K [7, 8, 9] [1] with status := 7, rnd := 3, p := 1 } : State).blen ∧
    (mk 2 0 K [7, 8] []).key = ({ mk 2 9 K [7, 8, 9] [1] with status := 7, rnd := 3, p := 1 } : State).key ∧
    (∀ i, i < 2 → (mk 2 0 K [7, 8] []).readB i =
      ({ mk 2 9 K [7, 8, 9] [1] with status := 7, rnd := 3, p := 1 } : State).readB i) ∧
    1 ≤ (mk 2 0 K [7, 8] []).blen.toNat ∧ (mk 2 0 K [7, 8] []).blen.toNat ≤ (mk 2 0 K [7, 8] []).bcap - 4 := by decide
theorem witness_CommandsLeaveOtherRegistersAlone : ∀ i : Instr, ∃ t, exec i (mk 1 1 Z [0] [0]) = .next t := by
  intro i; cases i <;> exact ⟨_, rfl⟩
/-- A state in which every command is accepted, and the counts of cells each one stores there. -/
theorem witness_CommandsLeaveOtherBytesAlone :
    [Instr.encw, .decw, .pack, .packl, .unpack, .unpackl, .ldkey, .enc, .dec].map
      (fun i => bytesStored i (mk 1 2 Z [0] [7, 3])) = [0, 0, 0, 0, 8, 3, 0, 8, 0] := by decide
theorem witness_CommandsLeaveOtherWordsAlone :
    [Instr.encw, .decw, .pack, .packl, .unpack, .unpackl, .ldkey, .enc, .dec].map
      (fun i => wordsStored i (mk 1 2 Z [0] [7, 3])) = [2, 2, 1, 2, 0, 0, 0, 2, 1] := by decide
/-- A sound state that is not the reset state, and a step from it that runs a command. -/
theorem witness_EveryStepKeepsTheEngineSound :
    ((mk 1 2 K [9] [7, 3]).withFetchWord 32 6).Inv ∧ ∃ t, step ((mk 1 2 K [9] [7, 3]).withFetchWord 32 6) = .next t :=
  ⟨⟨by decide, by decide, by decide, by decide, by decide, by decide, by decide⟩, ⟨_, rfl⟩⟩
theorem witness_ParametersNeverChange :
    (∃ t, step { small with pending := [.reset] } = .next t) ∧ ∃ t, step (small.withFetchWord 32 1) = .next t :=
  ⟨⟨_, rfl⟩, ⟨_, rfl⟩⟩

end Sys2Proof.Tests
end

section
/-! What no command touches: the parameters and the model's own fields (R7, R36). -/

namespace Sys2Proof.Machine

/-- The parameters and the model's own fields are those before (R36, log entries 1, 2, 3, 5). -/
structure OwnFieldsFrame (s t : State) : Prop where
  params   : t.params = s.params
  gen      : t.gen = s.gen
  pending  : t.pending = s.pending
  response : t.response = s.response

theorem OwnFieldsFrame.refl (s : State) : OwnFieldsFrame s s := ⟨rfl, rfl, rfl, rfl⟩

theorem OwnFieldsFrame.trans {s t u : State} (a : OwnFieldsFrame s t) (b : OwnFieldsFrame t u) :
    OwnFieldsFrame s u :=
  ⟨b.params.trans a.params, b.gen.trans a.gen, b.pending.trans a.pending, b.response.trans a.response⟩

theorem OwnFieldsFrame.setStatus {s t : State} (h : OwnFieldsFrame s t) (v : Word) :
    OwnFieldsFrame s (t.setStatus v) := ⟨h.params, h.gen, h.pending, h.response⟩

theorem TransformFrame.ownFields {s t : State} (h : TransformFrame s t) : OwnFieldsFrame s t :=
  ⟨h.params, h.gen, h.pending, h.response⟩

theorem packWork_ownFields (s : State) : OwnFieldsFrame s (packWork s) := by
  rw [packWork_eq]; exact ⟨rfl, rfl, rfl, rfl⟩

theorem packlWork_ownFields (s : State) : OwnFieldsFrame s (packlWork s) := by
  rw [packlWork_eq]; exact ⟨rfl, rfl, rfl, rfl⟩

theorem unpackWork_ownFields (s : State) : OwnFieldsFrame s (unpackWork s) := by
  rw [unpackWork, unpackBytes_eq]; exact ⟨rfl, rfl, rfl, rfl⟩

theorem unpacklRun_ownFields (s : State) : OwnFieldsFrame s (unpacklRun s) := by
  obtain ⟨bb, blen, st, h⟩ := unpacklRun_frame s
  rw [h]; exact ⟨rfl, rfl, rfl, rfl⟩

/-- The composed commands are the composition of their stages' frames (R150). -/
theorem work_ownFields (i : Instr) (s : State) : OwnFieldsFrame s (work i s) := by
  cases i with
  | encw => exact (encBlock_frame s).ownFields.setStatus _
  | decw => exact (decBlock_frame s).ownFields.setStatus _
  | pack => exact (packWork_ownFields s).setStatus _
  | packl => exact (packlWork_ownFields s).setStatus _
  | unpack => exact (unpackWork_ownFields s).setStatus _
  | unpackl => exact unpacklRun_ownFields s
  | ldkey => exact ⟨rfl, rfl, rfl, rfl⟩
  | enc =>
    exact (((packlWork_ownFields s).trans (encBlock_frame _).ownFields).trans (unpackWork_ownFields _)).setStatus _
  | dec => exact ((packWork_ownFields s).trans (decBlock_frame _).ownFields).trans (unpacklRun_ownFields _)

/-- A command leaves the own fields alone, whatever its outcome. -/
theorem exec_ownFields {i : Instr} {s t : State} (h : exec i s = .next t) : OwnFieldsFrame s t := by
  rw [exec_eq, Host.Outcome.next.injEq] at h
  subst h
  split
  · exact (OwnFieldsFrame.refl s).setStatus 5
  · exact work_ownFields i s

/-- So does any command word, legal or not (R161). -/
theorem runCommand_ownFields {c : Word} {s t : State} (h : runCommand c s = .next t) : OwnFieldsFrame s t := by
  unfold runCommand at h
  split at h
  · exact exec_ownFields h
  · cases h
    exact (OwnFieldsFrame.refl s).setStatus _

/-- A host write to a register stores into that register alone (R56). -/
theorem State.writeReg_ownFields (s : State) (r : Reg) (v : Word) : OwnFieldsFrame s (s.writeReg r v) := by
  cases r <;> exact ⟨rfl, rfl, rfl, rfl⟩

end Sys2Proof.Machine
end

section
/-! The obligations of the scope chapter: buffer cells (R13, R28) and the parameters (R7, R36). -/

namespace Sys2Proof.Machine

/-- Settles O43: the read-after-write laws of the two buffers, cell by cell. -/
theorem bufferWriteReachesOneCell : Obligations.BufferWriteReachesOneCell := by
  intro s i j b w
  refine ⟨?_, s.writeB_readW i b j, ?_, s.writeW_readB i w j⟩
  · split
    next h => rw [h, s.writeB_readB_same]
    next h => exact s.writeB_readB_other h b
  · split
    next h => rw [h, s.writeW_readW_same]
    next h => exact s.writeW_readW_other h w

/-- Settles O46: by the cases of what a step can have done; only a reset begins a new generation, and a command
stays in `OwnFieldsFrame`. -/
theorem parametersNeverChange : Obligations.ParametersNeverChange := by
  intro s t h
  rcases step_cases h with ⟨-, rfl⟩ | ⟨rest, hp, rfl⟩ | ⟨_, rest, _, -, rfl⟩ | ⟨_, r, v, rest, -, -, -, rfl⟩ |
    ⟨_, rest, _, _, -, -, rfl⟩ | ⟨_, rest, _, _, -, -, rfl⟩ | ⟨c, rest, -, hc⟩
  · exact ⟨rfl, .inl rfl⟩
  · exact ⟨rfl, .inr ⟨rfl, rest, hp⟩⟩
  · exact ⟨rfl, .inl rfl⟩
  · have f := (s.take rest).writeReg_ownFields r v
    exact ⟨f.params, .inl f.gen⟩
  · exact ⟨rfl, .inl rfl⟩
  · exact ⟨rfl, .inl rfl⟩
  · have f := runCommand_ownFields hc
    exact ⟨f.params, .inl f.gen⟩

end Sys2Proof.Machine
end

section
/-! What a command and a command word can come to, and the step rules of the host port: one inversion of `exec` and of
`runCommand`, and one equation per kind of host event (20_memory R56 to R60, 70_reset R180). -/

namespace Sys2Proof.Machine

/-- The inversion of `exec`: `ERR_ARG`, or the command's work (R162, R166). -/
theorem exec_cases {i : Instr} {s t : State} (h : exec i s = .next t) :
    (argError i s = true ∧ t = s.setStatus 5) ∨ (argError i s = false ∧ t = work i s) := by
  cases ha : argError i s with
  | true => rw [exec_of_argError ha] at h; cases h; exact .inl ⟨rfl, rfl⟩
  | false => rw [exec_of_accepted ha] at h; cases h; exact .inr ⟨rfl, rfl⟩

/-- The inversion of `runCommand`: the command of the word, or `ERR_CMD` (R72, R161). -/
theorem runCommand_cases {c : Word} {s t : State} (h : runCommand c s = .next t) :
    (∃ i, decode c = .ok i ∧ exec i s = .next t) ∨ t = s.setStatus 3 := by
  unfold runCommand at h
  split at h
  next i hi => exact .inl ⟨i, hi, h⟩
  next => cases h; exact .inr rfl

/-- A word that decodes runs its command (R72). -/
theorem runCommand_of_decode {c : Word} {i : Instr} (h : decode c = .ok i) (s : State) :
    runCommand c s = exec i s := by
  simp only [runCommand, h]

/-- A command word always ends (R193). -/
theorem runCommand_next (c : Word) (s : State) : ∃ t, runCommand c s = .next t := by
  unfold runCommand
  split
  · exact exec_next _ s
  · exact ⟨_, rfl⟩

/-- A command word leaves one of the four outcomes in `STATUS` (R25). -/
theorem runCommand_status {c : Word} {s t : State} (h : runCommand c s = .next t) :
    t.status = 1 ∨ t.status = 3 ∨ t.status = 5 ∨ t.status = 7 := by
  rcases runCommand_cases h with ⟨i, -, hi⟩ | rfl
  · rcases exec_cases hi with ⟨-, rfl⟩ | ⟨-, rfl⟩
    · exact .inr (.inr (.inl rfl))
    · rcases work_status i s with hs | ⟨-, hs⟩
      · exact .inl hs
      · exact .inr (.inr (.inr hs))
  · exact .inr (.inl rfl)

/-- Each register is reached at its own offset (R20, R60). -/
theorem target_reg_offset (prm : Params) (r : Reg) : target prm (prm.base + r.offset) 32 = some (.reg r) := by
  rw [target_base_add]; cases r <;> rfl

/-- The BB window holds the bytes in order (R60). -/
theorem target_bbWindow {prm : Params} {i : Nat} (h : i < prm.bcap) :
    target prm (prm.base + (0x01000000 + i)) 8 = some (.byte i) := by
  rw [target_base_add, targetAt, bbWindow, if_neg (by omega), if_pos (by omega), if_pos rfl, Nat.add_sub_cancel_left]

/-- The WB window holds the words in order, four offsets each, clear of the BB window (R7, R60). -/
theorem target_wbWindow {prm : Params} {i : Nat} (h : i < prm.wcap.words) :
    target prm (prm.base + (0x02000000 + 4 * i)) 32 = some (.word i) := by
  have hmax := prm.wcap.le_max
  have hbb : ¬ (0x01000000 ≤ 0x02000000 + 4 * i ∧ 0x02000000 + 4 * i < 0x01000000 + prm.bcap) := by
    rw [Params.bcap]; omega
  rw [target_base_add, targetAt, bbWindow, wbWindow, if_neg (by omega), if_neg hbb, if_pos (by omega),
    if_pos (by omega), Nat.add_sub_cancel_left, Nat.mul_div_cancel_left i (by decide)]

section
variable {s : State} {rest : List HostEvent}

/-- A reset is a finished event (R180). -/
theorem step_reset (hp : s.pending = .reset :: rest) : step s = .next s.takeReset := by
  simp only [step, nextEffect, hp]

/-- A read of a mapped cell returns the cell's value and changes nothing (R56). -/
theorem step_read {addr width : Nat} {c : Target} (hp : s.pending = .access (.read addr width) :: rest)
    (hc : target s.params addr width = some c) :
    step s = .next ((s.take rest).setResponse (some (s.readTarget c))) := by
  have hc' : target (s.take rest).params addr width = some c := hc
  have hr : (s.take rest).readTarget c = s.readTarget c := by
    cases c with
    | reg r => cases r <;> rfl
    | byte i => rfl
    | word i => rfl
  simp only [step, nextEffect, hp, access, hc', hr]

/-- A write to a mapped cell that is finished with its store (R56). -/
theorem step_write {addr width : Nat} {v : Word} {c : Target} {t : State}
    (hp : s.pending = .access (.write addr width v) :: rest) (hc : target s.params addr width = some c)
    (hw : writeTarget c v (s.take rest) = .done t) : step s = .next t := by
  have hc' : target (s.take rest).params addr width = some c := hc
  simp only [step, nextEffect, hp, access, hc', hw]

/-- A write to a register other than `CMD` stores into that register (R56). -/
theorem step_writeReg {r : Reg} {v : Word} (hr : r ≠ .cmd)
    (hp : s.pending = .access (.write (s.params.base + r.offset) 32 v) :: rest) :
    step s = .next ((s.take rest).writeReg r v) := by
  refine step_write hp (target_reg_offset s.params r) ?_
  cases r with
  | cmd => exact absurd rfl hr
  | _ => rfl

end

/-- A run whose first event is a register write goes on from the state that has stored it. -/
theorem run_writeReg {s : State} {rest : List HostEvent} {r : Reg} {v : Word} (k : Nat) (hr : r ≠ .cmd)
    (hp : s.pending = .access (.write (s.params.base + r.offset) 32 v) :: rest) :
    Host.Core.run Sys2Proof.core (k + 1) s = Host.Core.run Sys2Proof.core k ((s.take rest).writeReg r v) := by
  have hstep : Sys2Proof.core.step s = .next ((s.take rest).writeReg r v) := step_writeReg hr hp
  simp only [Host.Core.run, hstep]

end Sys2Proof.Machine
end

section
/-! The invariant of the engine (`State.Inv`): each event and each command keeps it. -/

namespace Sys2Proof.Machine

/-- A count that passes its check of R162 is within the limit. -/
theorem count_le_of_accepted {n limit : Nat} (h : decide (n = 0 ∨ limit < n) = false) : n ≤ limit := by
  have := of_decide_eq_false h; omega

/-- A count that passes its check of R162 is not zero. -/
theorem count_pos_of_accepted {n limit : Nat} (h : decide (n = 0 ∨ limit < n) = false) : 1 ≤ n := by
  have := of_decide_eq_false h; omega

/-- `UNPACK` of a block that fits keeps the buffers sound (R66). -/
theorem unpackWork_buffers {s : State} (hle : s.wordCount ≤ s.wcap) (h : s.Buffers) : (unpackWork s).Buffers :=
  unpackBytes_buffers (Nat.mul_le_mul_left 4 hle) h

/-- A block that fits still fits once it is encrypted. -/
theorem encBlock_fits {s : State} (hle : s.wordCount ≤ s.wcap) : (encBlock s).wordCount ≤ (encBlock s).wcap := by
  rw [(encBlock_frame s).wordCount, (encBlock_frame s).wcap]; exact hle

/-- A block that fits still fits once it is decrypted. -/
theorem decBlock_fits {s : State} (hle : s.wordCount ≤ s.wcap) : (decBlock s).wordCount ≤ (decBlock s).wcap := by
  rw [(decBlock_frame s).wordCount, (decBlock_frame s).wcap]; exact hle

/-- A command whose lengths are accepted keeps the buffers sound; a composed one stage by stage (R66, R150). -/
theorem work_buffers {i : Instr} {s : State} (ha : argError i s = false) (h : s.Buffers) : (work i s).Buffers := by
  cases i with
  | encw => exact (encBlock_buffers (Nat.le_of_not_lt (of_decide_eq_false ha)) h).setStatus _
  | decw => exact (decBlock_buffers (Nat.le_of_not_lt (of_decide_eq_false ha)) h).setStatus _
  | pack => exact (packWork_buffers (count_le_of_accepted ha) h).setStatus _
  | packl => exact (packlWork_buffers (count_le_of_accepted ha) h).setStatus _
  | unpack => exact (unpackWork_buffers (count_le_of_accepted ha) h).setStatus _
  | unpackl => exact unpacklRun_buffers (count_le_of_accepted ha) h
  | ldkey => exact (h.setKey _).setStatus _
  | enc =>
    have hle : s.byteCount ≤ s.bcap - 4 := count_le_of_accepted ha
    have hfit := packlWork_fits hle
    exact (unpackWork_buffers (encBlock_fits hfit) (encBlock_buffers hfit (packlWork_buffers hle h))).setStatus _
  | dec =>
    have hle : s.byteCount ≤ s.bcap := count_le_of_accepted ha
    have hfit := packWork_fits hle
    exact unpacklRun_buffers (decBlock_fits hfit) (decBlock_buffers hfit (packWork_buffers hle h))

theorem exec_buffers {i : Instr} {s t : State} (h : s.Buffers) (ht : exec i s = .next t) : t.Buffers := by
  rcases exec_cases ht with ⟨-, rfl⟩ | ⟨ha, rfl⟩
  · exact h.setStatus 5
  · exact work_buffers ha h

theorem runCommand_buffers {c : Word} {s t : State} (h : s.Buffers) (ht : runCommand c s = .next t) : t.Buffers := by
  rcases runCommand_cases ht with ⟨i, -, hi⟩ | rfl
  · exact exec_buffers h hi
  · exact h.setStatus 3

/-- A command word leaves a sound engine sound (R25, R66). -/
theorem runCommand_inv {c : Word} {s t : State} (h : s.Inv) (ht : runCommand c s = .next t) : t.Inv := by
  refine State.inv_iff.2 ⟨runCommand_buffers (State.inv_iff.1 h).1 ht, ?_⟩
  rcases runCommand_status ht with hs | hs | hs | hs <;> rw [hs] <;> rfl

/-- Reset makes any engine sound (R35, R180). -/
theorem State.takeReset_inv (s : State) : s.takeReset.Inv where
  bb_wf := rfl
  wb_wf := rfl
  bb_below := rfl
  wb_below := rfl
  status_ok := rfl
  rnd_zero := rfl
  p_below := Nat.lt_of_lt_of_le Nat.zero_lt_two s.params.wcap.two_le

theorem State.Inv.take {s : State} (h : s.Inv) (rest : List HostEvent) : (s.take rest).Inv :=
  ⟨h.bb_wf, h.wb_wf, h.bb_below, h.wb_below, h.status_ok, h.rnd_zero, h.p_below⟩

theorem State.Inv.setResponse {s : State} (h : s.Inv) (v : Option ReadData) : (s.setResponse v).Inv :=
  ⟨h.bb_wf, h.wb_wf, h.bb_below, h.wb_below, h.status_ok, h.rnd_zero, h.p_below⟩

theorem State.Inv.writeReg {s : State} (h : s.Inv) (r : Reg) (v : Word) : (s.writeReg r v).Inv := by
  cases r <;> exact ⟨h.bb_wf, h.wb_wf, h.bb_below, h.wb_below, h.status_ok, h.rnd_zero, h.p_below⟩

theorem State.Inv.writeB {s : State} (h : s.Inv) {i : Nat} (hi : i < s.bcap) (v : Byte) : (s.writeB i v).Inv :=
  ⟨Memory.wf_set i v h.bb_wf, h.wb_wf, Memory.below_set v hi h.bb_below, h.wb_below, h.status_ok, h.rnd_zero, h.p_below⟩

theorem State.Inv.writeW {s : State} (h : s.Inv) {i : Nat} (hi : i < s.wcap) (v : Word) : (s.writeW i v).Inv :=
  ⟨h.bb_wf, Memory.wf_set i v h.wb_wf, h.bb_below, Memory.below_set v hi h.wb_below, h.status_ok, h.rnd_zero, h.p_below⟩

/-- Settles O44: by the cases of what a step can have done, each of which keeps the invariant. -/
theorem everyStepKeepsTheEngineSound : Obligations.EveryStepKeepsTheEngineSound := by
  intro s s' h hs
  rcases step_cases hs with ⟨-, rfl⟩ | ⟨rest, -, rfl⟩ | ⟨_, rest, c, -, rfl⟩ | ⟨_, r, v, rest, -, -, -, rfl⟩ |
    ⟨_, rest, i, b, -, hi, rfl⟩ | ⟨_, rest, i, w, -, hi, rfl⟩ | ⟨c, rest, -, hc⟩
  · exact h
  · exact s.takeReset_inv
  · exact (h.take rest).setResponse (some c)
  · exact (h.take rest).writeReg r v
  · exact (h.take rest).writeB hi b
  · exact (h.take rest).writeW hi w
  · exact runCommand_inv (h.take rest) hc

/-- Settles O45: every field of the reset state is a numeral, so each clause computes. -/
theorem resetStateIsSound : Obligations.ResetStateIsSound :=
  ⟨rfl, rfl, rfl, rfl, rfl, rfl, by decide⟩

end Sys2Proof.Machine
end

section
/-! What each command leaves alone (10_state R21 to R24, R29, R34): the registers, the bytes and the words. -/

namespace Sys2Proof.Machine

open Sys2Proof.Rules

/-! ## Registers: what one stage leaves alone -/

@[simp] theorem packWork_key (s : State) : (packWork s).key = s.key := by rw [packWork_eq]
@[simp] theorem packWork_blen (s : State) : (packWork s).blen = s.blen := by rw [packWork_eq]
@[simp] theorem packWork_sum (s : State) : (packWork s).sum = s.sum := by rw [packWork_eq]
@[simp] theorem packWork_rnd (s : State) : (packWork s).rnd = s.rnd := by rw [packWork_eq]
@[simp] theorem packWork_p (s : State) : (packWork s).p = s.p := by rw [packWork_eq]
@[simp] theorem packWork_readB (s : State) (a : Nat) : (packWork s).readB a = s.readB a := by rw [packWork_eq]; rfl

@[simp] theorem packlWork_key (s : State) : (packlWork s).key = s.key := by rw [packlWork_eq]
@[simp] theorem packlWork_blen (s : State) : (packlWork s).blen = s.blen := by rw [packlWork_eq]
@[simp] theorem packlWork_sum (s : State) : (packlWork s).sum = s.sum := by rw [packlWork_eq]
@[simp] theorem packlWork_rnd (s : State) : (packlWork s).rnd = s.rnd := by rw [packlWork_eq]
@[simp] theorem packlWork_p (s : State) : (packlWork s).p = s.p := by rw [packlWork_eq]
@[simp] theorem packlWork_readB (s : State) (a : Nat) : (packlWork s).readB a = s.readB a := by rw [packlWork_eq]; rfl

@[simp] theorem unpackWork_key (s : State) : (unpackWork s).key = s.key := by rw [unpackWork, unpackBytes_eq]
@[simp] theorem unpackWork_wlen (s : State) : (unpackWork s).wlen = s.wlen := by rw [unpackWork, unpackBytes_eq]
@[simp] theorem unpackWork_sum (s : State) : (unpackWork s).sum = s.sum := by rw [unpackWork, unpackBytes_eq]
@[simp] theorem unpackWork_rnd (s : State) : (unpackWork s).rnd = s.rnd := by rw [unpackWork, unpackBytes_eq]
@[simp] theorem unpackWork_p (s : State) : (unpackWork s).p = s.p := by rw [unpackWork, unpackBytes_eq]
@[simp] theorem unpackWork_readW (s : State) (a : Nat) : (unpackWork s).readW a = s.readW a := by
  rw [unpackWork, unpackBytes_eq]; rfl

/-- `UNPACKL` leaves alone what `UNPACK` does (R34). -/
theorem unpacklRun_keeps {α : Type} {f : State → α}
    (hf : ∀ (s : State) bb blen st, f { s with bb := bb, blen := blen, status := st } = f s) (s : State) :
    f (unpacklRun s) = f s := by
  obtain ⟨bb, blen, st, h⟩ := unpacklRun_frame s
  rw [h, hf]

@[simp] theorem unpacklRun_key (s : State) : (unpacklRun s).key = s.key := unpacklRun_keeps (fun _ _ _ _ => rfl) s
@[simp] theorem unpacklRun_wlen (s : State) : (unpacklRun s).wlen = s.wlen := unpacklRun_keeps (fun _ _ _ _ => rfl) s
@[simp] theorem unpacklRun_sum (s : State) : (unpacklRun s).sum = s.sum := unpacklRun_keeps (fun _ _ _ _ => rfl) s
@[simp] theorem unpacklRun_rnd (s : State) : (unpacklRun s).rnd = s.rnd := unpacklRun_keeps (fun _ _ _ _ => rfl) s
@[simp] theorem unpacklRun_p (s : State) : (unpacklRun s).p = s.p := unpacklRun_keeps (fun _ _ _ _ => rfl) s
@[simp] theorem unpacklRun_readW (s : State) (a : Nat) : (unpacklRun s).readW a = s.readW a :=
  unpacklRun_keeps (f := fun t => t.readW a) (fun _ _ _ _ => rfl) s

theorem TransformFrame.readB {s t : State} (h : TransformFrame s t) (a : Nat) : t.readB a = s.readB a := by
  simp only [State.readB, State.unwrittenByte, h.bb, h.gen]

@[simp] theorem encBlock_key (s : State) : (encBlock s).key = s.key := (encBlock_frame s).key
@[simp] theorem encBlock_blen (s : State) : (encBlock s).blen = s.blen := (encBlock_frame s).blen
@[simp] theorem encBlock_wlen (s : State) : (encBlock s).wlen = s.wlen := (encBlock_frame s).wlen
@[simp] theorem encBlock_wordCount (s : State) : (encBlock s).wordCount = s.wordCount := (encBlock_frame s).wordCount
@[simp] theorem encBlock_readB (s : State) (a : Nat) : (encBlock s).readB a = s.readB a := (encBlock_frame s).readB a

@[simp] theorem decBlock_key (s : State) : (decBlock s).key = s.key := (decBlock_frame s).key
@[simp] theorem decBlock_blen (s : State) : (decBlock s).blen = s.blen := (decBlock_frame s).blen
@[simp] theorem decBlock_wlen (s : State) : (decBlock s).wlen = s.wlen := (decBlock_frame s).wlen
@[simp] theorem decBlock_wordCount (s : State) : (decBlock s).wordCount = s.wordCount := (decBlock_frame s).wordCount
@[simp] theorem decBlock_readB (s : State) (a : Nat) : (decBlock s).readB a = s.readB a := (decBlock_frame s).readB a

/-! ## Registers: what one command leaves alone -/

/-- Only `LDKEY` writes `KEY` (R21). -/
theorem work_key {i : Instr} (hi : i ≠ .ldkey) (s : State) : (work i s).key = s.key := by
  cases i with
  | ldkey => exact absurd rfl hi
  | _ => simp [work]

/-- Only the commands that unpack write `BLEN` (R22). -/
theorem work_blen {i : Instr} (hi : i ∉ [Instr.unpack, .unpackl, .enc, .dec]) (s : State) :
    (work i s).blen = s.blen := by
  cases i with
  | unpack | unpackl | enc | dec => exact absurd (by decide) hi
  | ldkey => rfl
  | _ => simp [work]

/-- Only the commands that pack write `WLEN` (R23). -/
theorem work_wlen {i : Instr} (hi : i ∉ [Instr.pack, .packl, .enc, .dec]) (s : State) :
    (work i s).wlen = s.wlen := by
  cases i with
  | pack | packl | enc | dec => exact absurd (by decide) hi
  | ldkey => rfl
  | _ => simp [work]

/-- Only the commands that transform write the internal registers (R29). -/
theorem work_internal {i : Instr} (hi : i ∉ [Instr.encw, .decw, .enc, .dec]) (s : State) :
    (work i s).sum = s.sum ∧ (work i s).rnd = s.rnd ∧ (work i s).p = s.p := by
  cases i with
  | encw | decw | enc | dec => exact absurd (by decide) hi
  | ldkey => exact ⟨rfl, rfl, rfl⟩
  | _ => simp [work]

/-- A command other than `LDKEY` leaves `KEY` alone, whatever its outcome (R21). -/
theorem exec_key {i : Instr} {s t : State} (hi : i ≠ .ldkey) (h : exec i s = .next t) : t.key = s.key := by
  rcases exec_cases h with ⟨-, rfl⟩ | ⟨-, rfl⟩
  · rfl
  · exact work_key hi s

/-- Settles O40: an error writes `STATUS` alone; an accepted command's work writes only the registers of its row. -/
theorem commandsLeaveOtherRegistersAlone : Obligations.CommandsLeaveOtherRegistersAlone := by
  intro i s t h
  obtain ⟨hparams, hgen, hpending, hresponse⟩ := exec_ownFields h
  refine ⟨fun hi => exec_key hi h, fun hi => ?_, fun hi => ?_, fun hi => ?_, hparams, hgen, hpending, hresponse⟩ <;>
    rcases exec_cases h with ⟨-, rfl⟩ | ⟨-, rfl⟩
  · rfl
  · exact work_blen hi s
  · rfl
  · exact work_wlen hi s
  · exact ⟨rfl, rfl, rfl⟩
  · exact work_internal hi s

/-! ## Buffer cells -/

/-- Beyond the accepted length, or anywhere when the length is refused, `UNPACKL` leaves BB alone (R127, R163). -/
theorem unpacklRun_readB_beyond {s : State} {a : Nat} (hw : 1 ≤ s.wordCount)
    (ha : (if lengthAccepted s.wordCount s.embeddedLength then s.embeddedLength else 0) ≤ a) :
    (unpacklRun s).readB a = s.readB a := by
  rcases unpacklRun_cases s with ⟨hl, h⟩ | ⟨-, h⟩ <;> rw [h]
  · rw [if_pos ((lengthOk_iff hw).1 hl)] at ha
    rw [State.setStatus_readB, unpackBytes_readB, if_neg (by omega)]
  · rfl

theorem unpackWork_readB_beyond {s : State} {a : Nat} (ha : 4 * s.wordCount ≤ a) :
    (unpackWork s).readB a = s.readB a := by
  rw [unpackWork, unpackBytes_readB, if_neg (by omega)]

/-- The length word `DEC` tests is the last word of the decrypted block (R152). -/
theorem embeddedLength_decBlock_packWork {s : State} (hpos : 1 ≤ s.byteCount) (hle : s.byteCount ≤ s.bcap) :
    (decBlock (packWork s)).embeddedLength = decLength s := by
  have hwc : (packWork s).wordCount = (s.blen.toNat + 3) / 4 := packWork_wordCount hle
  have hlast : (s.blen.toNat + 3) / 4 - 1 < (s.blen.toNat + 3) / 4 := by
    have : 1 ≤ s.blen.toNat := hpos
    omega
  have hpacked : ∀ j, j < (s.blen.toNat + 3) / 4 → (packWork s).readW j = packedWord s.readB s.blen.toNat j :=
    fun j hj => (packWork_readW s j).trans (if_pos hj)
  rw [State.embeddedLength, decBlock_readW, decBlock_wordCount, packWork_key, hwc,
    decryptBlock_congr hpacked _ hlast]
  rfl

/-- Settles O41: the loops that write BB stop at the command's count, and no other stage reaches BB. -/
theorem commandsLeaveOtherBytesAlone : Obligations.CommandsLeaveOtherBytesAlone := by
  intro i s t h a ha
  rcases exec_cases h with ⟨-, rfl⟩ | ⟨hok, rfl⟩
  · rfl
  simp only [bytesStored, hok, if_neg Bool.false_ne_true] at ha
  cases i with
  | encw | decw | pack | packl => simp [work]
  | ldkey => rfl
  | unpack => exact unpackWork_readB_beyond ha
  | unpackl => exact unpacklRun_readB_beyond (count_pos_of_accepted hok) ha
  | enc =>
    have hwc := packlWork_wordCount (s := s) (count_le_of_accepted hok)
    have hstored := unpackWork_readB_beyond (s := encBlock (packlWork s)) (a := a) (by
      rw [encBlock_wordCount, hwc]; exact ha)
    simpa [work] using hstored
  | dec =>
    have hpos : 1 ≤ s.byteCount := count_pos_of_accepted hok
    have hle : s.byteCount ≤ s.bcap := count_le_of_accepted hok
    have hwc : (decBlock (packWork s)).wordCount = wordsFor s.byteCount := by
      rw [decBlock_wordCount, packWork_wordCount hle]
    have hstored := unpacklRun_readB_beyond (s := decBlock (packWork s)) (a := a) (by
      rw [hwc]; exact wordsFor_pos hpos) (by
      rw [hwc, embeddedLength_decBlock_packWork hpos hle]; exact ha)
    simpa [work] using hstored

theorem encBlock_readW_beyond {s : State} {a : Nat} (ha : s.wordCount ≤ a) : (encBlock s).readW a = s.readW a := by
  rw [encBlock_readW, encryptBlock_beyond _ ha]

theorem decBlock_readW_beyond {s : State} {a : Nat} (ha : s.wordCount ≤ a) : (decBlock s).readW a = s.readW a := by
  rw [decBlock_readW, decryptBlock_beyond _ ha]

theorem packWork_readW_beyond {s : State} {a : Nat} (ha : wordsFor s.byteCount ≤ a) :
    (packWork s).readW a = s.readW a := by
  rw [packWork_readW, if_neg (by omega)]

theorem packlWork_readW_beyond {s : State} {a : Nat} (ha : wordsFor s.byteCount + 1 ≤ a) :
    (packlWork s).readW a = s.readW a := by
  rw [packlWork_readW, if_neg (by omega), if_neg (by omega)]

/-- Settles O42: the loops that write WB stop at the command's count, and no other stage reaches WB. -/
theorem commandsLeaveOtherWordsAlone : Obligations.CommandsLeaveOtherWordsAlone := by
  intro i s t h a ha
  rcases exec_cases h with ⟨-, rfl⟩ | ⟨hok, rfl⟩
  · rfl
  simp only [wordsStored, hok, if_neg Bool.false_ne_true] at ha
  cases i with
  | unpack | unpackl => simp [work]
  | ldkey => rfl
  | encw =>
    rcases Nat.lt_or_ge s.wordCount 2 with hshort | hlong
    · rw [work, encBlock_short hshort, State.succeed_readW]
    · exact encBlock_readW_beyond ((if_neg (Nat.not_lt.2 hlong)).symm.trans_le ha)
  | decw =>
    rcases Nat.lt_or_ge s.wordCount 2 with hshort | hlong
    · rw [work, decBlock_short hshort, State.succeed_readW]
    · exact decBlock_readW_beyond ((if_neg (Nat.not_lt.2 hlong)).symm.trans_le ha)
  | pack => exact packWork_readW_beyond ha
  | packl => exact packlWork_readW_beyond ha
  | enc =>
    have hwc := packlWork_wordCount (s := s) (count_le_of_accepted hok)
    calc (work .enc s).readW a
      _ = (encBlock (packlWork s)).readW a := unpackWork_readW _ a
      _ = (packlWork s).readW a := encBlock_readW_beyond (hwc.trans_le ha)
      _ = s.readW a := packlWork_readW_beyond ha
  | dec =>
    have hwc := packWork_wordCount (s := s) (count_le_of_accepted hok)
    calc (work .dec s).readW a
      _ = (decBlock (packWork s)).readW a := unpacklRun_readW _ a
      _ = (packWork s).readW a := decBlock_readW_beyond (hwc.trans_le ha)
      _ = s.readW a := packWork_readW_beyond ha

end Sys2Proof.Machine
end

section
/-! The registers and the host port (10_state R20 to R35, 20_memory R56): what reads return, what writes store, what
changes `STATUS` and `KEY`, and how the internal registers run. -/

namespace Sys2Proof.Machine

open Sys2Proof.Rules

/-- Settles O5: the access is `cmdWrite`, and a word that decodes runs its command. -/
theorem stepRunsTheDecodedCommand : Obligations.StepRunsTheDecodedCommand := by
  intro s rest c hp
  have hstep : step s = runCommand c (s.take rest) := step_cmdWrite hp
  exact ⟨fun i hi => hstep.trans (runCommand_of_decode hi _), fun _ => hstep⟩

/-- Settles O6: by the cell each address reaches, then what a read or a write of that cell does. -/
theorem hostAccessesReadAndStore : Obligations.HostAccessesReadAndStore := by
  intro s rest v s0 at'
  refine ⟨fun off w hmem hp => ?_, fun i hi hp => step_read hp (target_bbWindow hi),
    fun i hi hp => step_read hp (target_wbWindow hi), fun off t hmem hp => ?_, fun i hi hp => ?_, fun i hi hp => ?_,
    fun i hi hp => (step_cmdWrite hp).trans (runCommand_of_decode hi _)⟩
  · obtain ⟨r, -, hr⟩ := List.mem_map.1 (show (off, w) ∈
      [Reg.cmd, .status, .blen, .wlen, .key0, .key1, .key2, .key3].map (fun r => (r.offset, s.readReg r)) from hmem)
    cases hr
    exact step_read hp (target_reg_offset s.params r)
  · obtain ⟨r, hmem', hr⟩ := List.mem_map.1 (show (off, t) ∈
      [Reg.status, .blen, .wlen, .key0, .key1, .key2, .key3].map (fun r => (r.offset, s0.writeReg r v)) from hmem)
    cases hr
    refine step_writeReg (fun hcmd => ?_) hp
    subst hcmd
    exact absurd hmem' (by decide)
  · exact ⟨_, step_write hp (target_bbWindow hi) rfl, rfl, s0.writeB_readB_same i _,
      fun j hj => s0.writeB_readB_other hj _⟩
  · exact ⟨_, step_write hp (target_wbWindow hi) rfl, rfl, s0.writeW_readW_same i _,
      fun j hj => s0.writeW_readW_other hj _⟩

/-- Settles O8: the state after a reset event is `takeReset`, whose buffers list no cell. -/
theorem resetZeroesRegistersAndForgetsBuffers : Obligations.ResetZeroesRegistersAndForgetsBuffers := by
  refine ⟨?_, fun s rest hp => ⟨_, step_reset hp, rfl, rfl, rfl⟩⟩
  rintro s (rfl | ⟨s0, rest, hp, hs⟩)
  · exact ⟨rfl, rfl, rfl, rfl, rfl, rfl, rfl, fun _ => rfl, fun _ => rfl⟩
  · rw [step_reset hp] at hs
    cases hs
    exact ⟨rfl, rfl, rfl, rfl, rfl, rfl, rfl, fun _ => rfl, fun _ => rfl⟩

/-- Settles O12: the step is the word's run, which ends with one of the four outcomes; bit 0 of each is set. -/
theorem everyCommandEndsByWritingStatus : Obligations.EveryCommandEndsByWritingStatus := by
  intro s rest c hp
  obtain ⟨t, ht⟩ := runCommand_next c (s.take rest)
  have hst := runCommand_status ht
  refine ⟨t, (step_cmdWrite hp).trans ht, ?_, hst⟩
  rcases hst with h | h | h | h <;> rw [State.done, h] <;> rfl

theorem State.writeReg_status (s : State) (r : Reg) (v : Word) : (s.writeReg r v).status = s.status := by
  cases r <;> rfl

/-- Settles O13: in every other case of what a step can have done, `STATUS` is the one before. -/
theorem statusChangesOnlyByCommandOrReset : Obligations.StatusChangesOnlyByCommandOrReset := by
  intro s t h hne
  rcases step_cases h with ⟨-, rfl⟩ | ⟨rest, hp, -⟩ | ⟨_, rest, _, -, rfl⟩ | ⟨_, r, v, rest, -, -, -, rfl⟩ |
    ⟨_, rest, _, _, -, -, rfl⟩ | ⟨_, rest, _, _, -, -, rfl⟩ | ⟨c, rest, hp, -⟩
  · exact absurd rfl hne
  · exact .inl ⟨rest, hp⟩
  · exact absurd rfl hne
  · exact absurd ((s.take rest).writeReg_status r v) hne
  · exact absurd rfl hne
  · exact absurd rfl hne
  · exact .inr ⟨c, rest, hp⟩

/-- A register write that changes `KEY` is at the offset of a key register (R21). -/
theorem offset_mem_of_writeReg_key {s : State} {r : Reg} {v : Word} (h : (s.writeReg r v).key ≠ s.key) :
    r.offset ∈ [0x10, 0x14, 0x18, 0x1C] := by
  cases r with
  | cmd | status | blen | wlen => exact absurd rfl h
  | key0 | key1 | key2 | key3 => decide

/-- A command word that changes `KEY` is `LDKEY`'s (R145). -/
theorem eq_ldkey_of_runCommand_key {c : Word} {s t : State} (h : runCommand c s = .next t) (hne : t.key ≠ s.key) :
    c = 0x00000005 := by
  rcases runCommand_cases h with ⟨i, hc, hi⟩ | rfl
  · by_cases hl : i = .ldkey
    · subst hl; exact decode_eq_ok.1 hc
    · exact absurd (exec_key hl hi) hne
  · exact absurd rfl hne

/-- Settles O14: by the cases of what a step can have done. -/
theorem keyChangesOnlyByKeyWriteLdkeyOrReset : Obligations.KeyChangesOnlyByKeyWriteLdkeyOrReset := by
  intro s t h hne
  rcases step_cases h with ⟨-, rfl⟩ | ⟨rest, hp, -⟩ | ⟨_, rest, _, -, rfl⟩ | ⟨_, r, v, rest, hp, rfl, -, rfl⟩ |
    ⟨_, rest, _, _, -, -, rfl⟩ | ⟨_, rest, _, _, -, -, rfl⟩ | ⟨c, rest, hp, hc⟩
  · exact absurd rfl hne
  · exact .inl ⟨rest, hp⟩
  · exact absurd rfl hne
  · exact .inr (.inl ⟨r.offset, v, rest, offset_mem_of_writeReg_key (s := s.take rest) hne, hp⟩)
  · exact absurd rfl hne
  · exact absurd rfl hne
  · have hc5 := eq_ldkey_of_runCommand_key hc hne
    subst hc5
    exact .inr (.inr ⟨rest, hp⟩)

/-- A transformed block takes at most 32 rounds, so `RND` holds the count (R93). -/
theorem rounds_le {m : Nat} (hm : 2 ≤ m) : rounds m ≤ 32 := by
  have : 52 / m ≤ 52 / 2 := Nat.div_le_div_left hm (by decide)
  rw [rounds]; omega

theorem toNat_rnd_of_rounds {m : Nat} (hm : 2 ≤ m) (r : Nat) : (BitVec.ofNat 6 (rounds m - r)).toNat = rounds m - r := by
  have := rounds_le hm
  rw [BitVec.toNat_ofNat, Nat.mod_eq_of_lt (by omega)]

/-- Settles O17: the schedule is `EncAt` and `DecAt`, which `r * m + k` steps of each transform reach. -/
theorem sequencerRunsOnSchedule : Obligations.SequencerRunsOnSchedule := by
  intro s r k hm hr hk
  have henc := encStep_iterate s hm r k hr hk
  have hdec := decStep_iterate s hm r k hr hk
  exact ⟨⟨henc.p, (congrArg BitVec.toNat henc.rnd).trans (toNat_rnd_of_rounds hm r), henc.begin_sum⟩,
    ⟨hdec.p, (congrArg BitVec.toNat hdec.rnd).trans (toNat_rnd_of_rounds hm r), hdec.sum⟩⟩

/-- Sixteen bytes that are the bytes of four words load those words (R140). -/
theorem keyWord_of_unpackedByte {b : Nat → Byte} {w : Block} (hb : ∀ i, i < 16 → b i = Rules.unpackedByte w i)
    {j : Nat} (hj : j < 4) : keyWord b 16 j = w j := by
  rw [keyWord, Nat.min_self, packedWord_congr hb j]
  exact packedWord_unpackedByte w (m := 4) hj

/-- Settles O34: four register writes in turn; and packing the unpacked key gives it back. -/
theorem directKeyWritesEqualLdkey : Obligations.DirectKeyWritesEqualLdkey := by
  refine ⟨fun s k => ?_, fun s k hlen hcap hbytes => ?_⟩
  · refine Eq.trans (run_writeReg (r := .key0) 3 (by decide) rfl) ?_
    refine Eq.trans (run_writeReg (r := .key1) 2 (by decide) rfl) ?_
    refine Eq.trans (run_writeReg (r := .key2) 1 (by decide) rfl) ?_
    refine Eq.trans (run_writeReg (r := .key3) 0 (by decide) rfl) ?_
    simp only [Host.Core.run, State.writeReg, State.take, State.setPending, State.setResponse, State.setKey]
  · have hn : s.byteCount = 16 := by rw [State.byteCount, hlen]; rfl
    have hok : argError .ldkey s = false := by
      refine decide_eq_false ?_
      have : s.blen.toNat = 16 := hn
      omega
    have hkey : ∀ j, j < 4 → keyWord s.readB 16 j = [k.k0, k.k1, k.k2, k.k3].getD j 0 :=
      fun _ hj => keyWord_of_unpackedByte hbytes hj
    rw [exec_of_accepted hok, work, loadKey_eq, hn, hkey 0 (by decide), hkey 1 (by decide), hkey 2 (by decide),
      hkey 3 (by decide)]
    rfl

end Sys2Proof.Machine
end

section
/-! The address map (20_memory R53, R60, R61): the accesses that reach a cell are those on the map, and a step answers
a next state exactly for these. -/

namespace Sys2Proof.Machine

open Sys2Proof.Rules

/-- Every multiple of 4 in the register region is some register's offset (R20, R60). -/
theorem exists_reg_offset_eq {off : Nat} (hle : off ≤ 0x1F) (h4 : off % 4 = 0) : ∃ r : Reg, off = r.offset := by
  have offsets : ∀ j < 8, ∃ r ∈ [Reg.cmd, .status, .blen, .wlen, .key0, .key1, .key2, .key3], 4 * j = r.offset := by decide
  obtain ⟨j, rfl⟩ := Nat.dvd_of_mod_eq_zero h4
  obtain ⟨r, -, hr⟩ := offsets j (by omega)
  exact ⟨r, hr⟩

/-- No register stands at a misaligned offset (R53). -/
theorem regAt_misaligned {off : Nat} (h4 : off % 4 ≠ 0) : regAt off = none := by
  refine List.find?_eq_none.2 fun r _ hr => h4 ?_
  rw [← eq_of_beq hr]
  cases r <;> rfl

/-- An access on the map reaches a cell (R60). -/
theorem exists_target_of_onMap {prm : Params} {off width : Nat} (h : onMap prm off width) :
    ∃ c, target prm (prm.base + off) width = some c := by
  rcases h with ⟨hle, h4, rfl⟩ | ⟨hle, hlt, rfl⟩ | ⟨hle, hlt, h4, rfl⟩
  · obtain ⟨r, rfl⟩ := exists_reg_offset_eq hle h4
    exact ⟨_, target_reg_offset prm r⟩
  · obtain ⟨i, rfl⟩ := Nat.exists_eq_add_of_le hle
    exact ⟨_, target_bbWindow (Nat.lt_of_add_lt_add_left hlt)⟩
  · obtain ⟨i, rfl⟩ : ∃ i, off = 0x02000000 + 4 * i := ⟨(off - 0x02000000) / 4, by omega⟩
    exact ⟨_, target_wbWindow (by omega)⟩

/-- An access off the map, or of a shape its space does not allow, reaches no cell (R53, R61). -/
theorem target_eq_none_of_not_onMap {prm : Params} {off width : Nat} (h : ¬ onMap prm off width) :
    target prm (prm.base + off) width = none := by
  rw [target_base_add, targetAt, bbWindow, wbWindow]
  split
  next hreg =>
    split
    next hw => rw [regAt_misaligned fun h4 => h (.inl ⟨Nat.le_of_lt_succ hreg, h4, hw⟩), Option.map_none]
    next => rfl
  next =>
    split
    next hbb => exact if_neg fun hw => h (.inr (.inl ⟨hbb.1, hbb.2, hw⟩))
    next =>
      split
      next hwb => exact if_neg fun hw => h (.inr (.inr ⟨hwb.1, hwb.2, by omega, hw.1⟩))
      next => rfl

/-- A write to a cell other than `CMD` is finished with its store (R56). -/
theorem exists_writeTarget_done {c : Target} (hc : c ≠ .reg .cmd) (v : Word) (s : State) :
    ∃ t, writeTarget c v s = .done t := by
  cases c with
  | byte i | word i => exact ⟨_, rfl⟩
  | reg r =>
    cases r with
    | cmd => exact absurd rfl hc
    | _ => exact ⟨_, rfl⟩

/-- An access that reaches a cell answers a next state: a read and a store at once, a `CMD` write because every
command ends (R56, R193). -/
theorem exists_step_mapped {s : State} {a : HostAccess} {rest : List HostEvent} {addr width : Nat} {c : Target}
    (ha : a = .read addr width ∨ ∃ v, a = .write addr width v) (hp : s.pending = .access a :: rest)
    (ht : target s.params addr width = some c) : ∃ t, step s = .next t := by
  rcases ha with rfl | ⟨v, rfl⟩
  · exact ⟨_, step_read hp ht⟩
  · by_cases hc : c = .reg .cmd
    · subst hc
      obtain ⟨rfl, rfl⟩ := target_reg ht
      rw [step_cmdWrite hp]
      exact runCommand_next v _
    · obtain ⟨t, hw⟩ := exists_writeTarget_done hc v (s.take rest)
      exact ⟨t, step_write hp ht hw⟩

/-- Settles O7: an access faults when it reaches no cell, which is off the map or below `BASE`, and answers a next
state when it reaches one, which is on the map. -/
theorem hostAccessFaultsExactlyOffTheMap : Obligations.HostAccessFaultsExactlyOffTheMap := by
  intro s rest a addr width ha hp
  refine ⟨fun off hoff hmap => ?_, fun off hoff hmap => ?_, fun hlt => step_unmapped ha hp (target_below_base width hlt)⟩
  · subst hoff
    exact step_unmapped ha hp (target_eq_none_of_not_onMap hmap)
  · subst hoff
    obtain ⟨c, hc⟩ := exists_target_of_onMap hmap
    exact exists_step_mapped ha hp hc

end Sys2Proof.Machine
end

section
/-! The encoding (30_encoding R70 to R74): the rows of the command table are the commands' own words, the well-formed
fields are the commands' own fields, and the words R74 lists as illegal are those whose fields are not well formed. -/

namespace Sys2Proof

open Sys2Proof.Rules

/-- A row of the command table pairs a command with its own word (R73). -/
theorem mem_tableRows {c : Word} {i : Instr} : (c, i) ∈ tableRows ↔ c = encode i := by
  constructor
  · have rows : ∀ r ∈ tableRows, r.1 = encode r.2 := by decide
    exact rows (c, i)
  · rintro rfl
    cases i <;> decide

/-- The conditions of R74 on the fields, as propositions. -/
theorem CmdFields.wf_iff (f : CmdFields) :
    f.wf = true ↔ f.rsv = 0 ∧ (1 ≤ f.op.toNat ∧ f.op.toNat ≤ 7) ∧ (f.l = 0 ∨ f.op = 3 ∨ f.op = 4) := by
  simp only [CmdFields.wf, CmdFields.reservedClear, CmdFields.opNamed, CmdFields.lenFlagAllowed, Bool.and_eq_true,
    Bool.or_eq_true, beq_iff_eq, decide_eq_true_eq, and_assoc, or_assoc]

/-- Well-formed fields are the columns `OP` and `L` of some row of the table (R73, R74). -/
theorem CmdFields.wf_iff_exists_fields (f : CmdFields) : f.wf = true ↔ ∃ i : Instr, i.fields = f := by
  constructor
  · intro h
    have rows : ∀ (l : BitVec 1) (op : BitVec 4), (⟨0, l, op⟩ : CmdFields).wf = true →
        ∃ r ∈ tableRows, r.2.fields = ⟨0, l, op⟩ := by decide
    obtain ⟨hrsv, -, -⟩ := f.wf_iff.1 h
    obtain ⟨rsv, l, op⟩ := f
    subst hrsv
    obtain ⟨r, -, hr⟩ := rows l op h
    exact ⟨r.2, hr⟩
  · rintro ⟨i, rfl⟩
    exact i.wf_all

/-- A word is a command's own word exactly when it splits into the command's fields (R70). -/
theorem eq_encode_iff_fields {c : Word} {i : Instr} : c = encode i ↔ i.fields = splitFields c := by
  constructor
  · rintro rfl
    exact (splitFields_joinFields _).symm
  · intro h
    rw [encode, h, joinFields_splitFields]

/-- `OP` is bits 3:0 (R70). -/
theorem splitFields_op_toNat (c : Word) : (splitFields c).op.toNat = c.toNat % 16 := by
  simp only [splitFields, BitVec.extractLsb'_toNat, Nat.shiftRight_zero, Nat.reducePow]

/-- `L` is bit 4 (R70). -/
theorem splitFields_l_toNat (c : Word) : (splitFields c).l.toNat = c.toNat / 16 % 2 := by
  simp only [splitFields, BitVec.extractLsb'_toNat, Nat.shiftRight_eq_div_pow, Nat.reducePow]

/-- The reserved field is bits 31:5 (R70). -/
theorem splitFields_rsv_toNat (c : Word) : (splitFields c).rsv.toNat = c.toNat / 32 := by
  have hlt : c.toNat / 32 < 2 ^ 27 := by omega
  simp only [splitFields, BitVec.extractLsb'_toNat, Nat.shiftRight_eq_div_pow]
  exact Nat.mod_eq_of_lt hlt

/-- R74's list of illegal words is the negation of well-formed fields. -/
theorem illegalWord_iff_not_wf (c : Word) : illegalWord c ↔ ¬ (splitFields c).wf = true := by
  rw [CmdFields.wf_iff]
  simp only [illegalWord, ← BitVec.toNat_inj, splitFields_op_toNat, splitFields_l_toNat, splitFields_rsv_toNat,
    BitVec.ofNat_eq_ofNat, BitVec.toNat_ofNat, Nat.reducePow, Nat.reduceMod, List.mem_cons, List.not_mem_nil, or_false]
  omega

/-- A word is illegal exactly when it is no command's word (R73, R74). -/
theorem illegalWord_iff_ne_encode (c : Word) : illegalWord c ↔ ∀ i : Instr, c ≠ encode i := by
  rw [illegalWord_iff_not_wf, CmdFields.wf_iff_exists_fields, not_exists]
  exact forall_congr' fun i => not_congr eq_encode_iff_fields.symm

/-- An illegal word raises `ERR_CMD` (R161). -/
theorem Machine.runCommand_of_illegalWord {c : Word} (h : illegalWord c) (s : Machine.State) :
    Machine.runCommand c s = .next (s.setStatus 3) := by
  unfold Machine.runCommand
  split
  next i hi => exact absurd (decode_eq_ok.1 hi) ((illegalWord_iff_ne_encode c).1 h i)
  next => rfl

/-- Settles O2: both sides say that `c` is the command's own word. -/
theorem decodeIsExactlyTheCommandTable : Obligations.DecodeIsExactlyTheCommandTable :=
  fun _ _ => decode_eq_ok.trans mem_tableRows.symm

/-- Settles O3: joining and splitting are inverse, so the word of given fields decodes to the command that has them. -/
theorem decodeAcceptsExactlyWellFormedFields : Obligations.DecodeAcceptsExactlyWellFormedFields := by
  refine ⟨decode_encode, joinFields_splitFields, fun f => ⟨splitFields_joinFields f, ?_⟩⟩
  rw [CmdFields.wf_iff_exists_fields]
  refine exists_congr fun i => ⟨?_, And.right⟩
  rintro rfl
  exact ⟨decode_encode i, rfl⟩

/-- Settles O4: a row of the table holds its command's own word, and a word that is no command's raises `ERR_CMD`. -/
theorem illegalWordOnlySetsErrCmd : Obligations.IllegalWordOnlySetsErrCmd := by
  refine ⟨fun c => ?_, fun _ s h => Machine.runCommand_of_illegalWord h s⟩
  rw [illegalWord_iff_ne_encode]
  exact forall_congr' fun i => not_congr mem_tableRows.symm

/-- Settles O1: the nine words are the rows of the table; each of the other three fails one check of the decoder. -/
theorem tableWordsDecodeAsWritten : Obligations.TableWordsDecodeAsWritten := by
  have row {c : Word} {i : Instr} (h : (c, i) ∈ tableRows) : decode c = .ok i :=
    (decodeIsExactlyTheCommandTable c i).2 h
  exact ⟨row (by decide), row (by decide), row (by decide), row (by decide), row (by decide), row (by decide),
    row (by decide), row (by decide), row (by decide), rfl, rfl, rfl⟩

end Sys2Proof
end

section
/-! The word transform (40_word_transform R90 to R106): its formulas, and the two commands on a block that fits, a short
one and one that is too long. -/

namespace Sys2Proof.Rules

open Sys2Proof.Machine

/-! ## The formulas -/

/-- The key registers as the sequence `KEY[0..3]` (R13, R21). -/
theorem get_eq_getD (k : KeyRegs) (j : BitVec 2) : k.get j = [k.k0, k.k1, k.k2, k.k3].getD j.toNat 0 := by
  obtain ⟨⟨j, hj⟩⟩ := j
  rcases (by omega : j = 0 ∨ j = 1 ∨ j = 2 ∨ j = 3) with rfl | rfl | rfl | rfl <;> rfl

/-- The key index of R92 on two bits is `(p & 3) ^ e` on integers. -/
theorem keyIndex_toNat (p : Nat) (e : BitVec 2) : (BitVec.ofNat 2 p ^^^ e).toNat = (p &&& 3) ^^^ e.toNat := by
  rw [BitVec.toNat_xor, BitVec.toNat_ofNat, ← Nat.and_two_pow_sub_one_eq_mod]

/-- Bits 3:2 of `SUM` are `(SUM >> 2) & 3` (R91). -/
theorem keySelect_toNat (sum : Word) : (keySelect sum).toNat = ((sum >>> 2) &&& 3).toNat := by
  have hmask : (3 : Word).toNat = 2 ^ 2 - 1 := rfl
  rw [keySelect, BitVec.extractLsb'_toNat, BitVec.toNat_and, BitVec.toNat_ushiftRight, hmask,
    Nat.and_two_pow_sub_one_eq_mod]

/-- Settles O15: the machine's key word is the one the printed index selects; the example and `DELTA` compute. -/
theorem mixingFunctionAsPrinted : Obligations.MixingFunctionAsPrinted := by
  refine ⟨fun sum y z p e k => ?_, rfl, keySelect_toNat, rfl⟩
  rw [← keyIndex_toNat, ← get_eq_getD]
  rfl

/-- The round count from the quotient of R93, given by its two bounds. -/
theorem rounds_eq {m a : Nat} (hlo : a * m ≤ 52) (hhi : 52 < (a + 1) * m) : rounds m = 6 + a :=
  congrArg (6 + ·) (Nat.div_eq_of_lt_le hlo hhi)

/-- Settles O16: each row of the table is a range of `m` with one quotient of 52. -/
theorem roundCountPerTable : Obligations.RoundCountPerTable := by
  refine ⟨fun m hm => ⟨rfl, Nat.le_add_right _ _, rounds_le hm⟩, fun m _ => rounds_eq (a := 0) ?_ ?_,
    fun m _ _ => rounds_eq (a := 1) ?_ ?_, fun m _ _ => rounds_eq (a := 2) ?_ ?_,
    fun m _ _ => rounds_eq (a := 3) ?_ ?_, fun m _ _ => rounds_eq (a := 4) ?_ ?_,
    rfl, rfl, rfl, rfl, rfl, rfl, rfl, rfl, rfl⟩ <;> omega

/-! ## The transforms as functions on blocks of `m` words -/

/-- A map that another undoes, and that looks at the first `m` words alone, is undone on blocks of `m` words too. -/
theorem onBlock_leftInverse {m : Nat} {f g : Block → Block} (hgf : ∀ w, g (f w) = w)
    (hg : ∀ {w w' : Block}, (∀ i, i < m → w i = w' i) → ∀ i, i < m → g w i = g w' i) :
    Function.LeftInverse (onBlock m g) (onBlock m f) := by
  intro w
  funext i
  have hmid : ∀ j, j < m → (if h : j < m then onBlock m f w ⟨j, h⟩ else 0) =
      f (fun j => if h : j < m then w ⟨j, h⟩ else 0) j := fun j hj => dif_pos hj
  exact (hg hmid i i.isLt).trans ((congrFun (hgf _) i).trans (dif_pos i.isLt))

theorem onBlock_decrypt_encrypt (k : KeyRegs) {m : Nat} (hm : 2 ≤ m) :
    Function.LeftInverse (onBlock m (decrypt k m)) (onBlock m (encrypt k m)) :=
  onBlock_leftInverse (fun w => decrypt_encrypt k w hm) (decrypt_congr (by omega))

theorem onBlock_encrypt_decrypt (k : KeyRegs) {m : Nat} (hm : 2 ≤ m) :
    Function.LeftInverse (onBlock m (encrypt k m)) (onBlock m (decrypt k m)) :=
  onBlock_leftInverse (fun w => encrypt_decrypt k w hm) (encrypt_congr (by omega))

end Sys2Proof.Rules

namespace Sys2Proof.Machine

open Sys2Proof.Rules

/-! ## What the two commands answer -/

theorem exec_encw_tooLong {s : State} (h : s.wcap < s.wlen.toNat) : exec .encw s = .next (s.setStatus 5) :=
  exec_of_argError (decide_eq_true h)

theorem exec_decw_tooLong {s : State} (h : s.wcap < s.wlen.toNat) : exec .decw s = .next (s.setStatus 5) :=
  exec_of_argError (decide_eq_true h)

theorem exec_encw_fits {s : State} (h : s.wlen.toNat ≤ s.wcap) : exec .encw s = .next ((encBlock s).setStatus 1) :=
  exec_of_accepted (decide_eq_false (Nat.not_lt.2 h))

theorem exec_decw_fits {s : State} (h : s.wlen.toNat ≤ s.wcap) : exec .decw s = .next ((decBlock s).setStatus 1) :=
  exec_of_accepted (decide_eq_false (Nat.not_lt.2 h))

/-- A block of fewer than two words fits every engine (R7), so it is left with success (R103). -/
theorem exec_encw_short {s : State} (h : s.wlen.toNat < 2) : exec .encw s = .next (s.setStatus 1) := by
  rw [exec_encw_fits (Nat.le_trans (Nat.le_of_lt h) s.params.wcap.two_le), encBlock_short h]

/-- As `exec_encw_short`, for decryption. -/
theorem exec_decw_short {s : State} (h : s.wlen.toNat < 2) : exec .decw s = .next (s.setStatus 1) := by
  rw [exec_decw_fits (Nat.le_trans (Nat.le_of_lt h) s.params.wcap.two_le), decBlock_short h]

/-- Settles O21: the two short cases. -/
theorem shortBlocksAreLeftUnchanged : Obligations.ShortBlocksAreLeftUnchanged :=
  fun _ h => ⟨exec_encw_short h, exec_decw_short h⟩

/-- The frame of a transform that ends by writing `STATUS`, as one record update (R34). -/
theorem TransformFrame.setStatus_eq {s t : State} (h : TransformFrame s t) (v : Word) :
    t.setStatus v = { s with status := v, wb := t.wb, sum := t.sum, rnd := t.rnd, p := t.p } :=
  congrArg (State.setStatus · v) h.eq

/-- `SUM` after an encryption of any length (R101, R103). -/
theorem encBlock_sum (s : State) : (encBlock s).sum =
    if s.wlen.toNat < 2 then s.sum else delta * BitVec.ofNat 32 (rounds s.wlen.toNat) := by
  split
  next h => rw [encBlock_short h]
  next h => exact (encBlock_internal s (Nat.le_of_not_lt h)).1

/-- `SUM` after a decryption of any length (R101, R103). -/
theorem decBlock_sum (s : State) : (decBlock s).sum = if s.wlen.toNat < 2 then s.sum else 0 := by
  split
  next h => rw [decBlock_short h]
  next h => exact (decBlock_internal s (Nat.le_of_not_lt h)).1

/-- Settles O18: the step-level run leaves the encryption of the block and stays in `TransformFrame`. -/
theorem encwEncryptsTheBlock : Obligations.EncwEncryptsTheBlock := fun s =>
  ⟨exec_encw_tooLong, fun h => ⟨_, exec_encw_fits h, (encBlock_frame s).setStatus_eq 1, encBlock_sum s,
    fun i _ => congrFun (encBlock_readW s) i, fun _ hi => encBlock_readW_beyond hi⟩⟩

/-- Settles O19: the step-level run leaves the decryption of the block and stays in `TransformFrame`. -/
theorem decwDecryptsTheBlock : Obligations.DecwDecryptsTheBlock := fun s =>
  ⟨exec_decw_tooLong, fun h => ⟨_, exec_decw_fits h, (decBlock_frame s).setStatus_eq 1, decBlock_sum s,
    fun i _ => congrFun (decBlock_readW s) i, fun _ hi => decBlock_readW_beyond hi⟩⟩

/-- Settles O20: the registers of the last step when the block is transformed; otherwise `STATUS` alone is written. -/
theorem internalRegistersAfterTransform : Obligations.InternalRegistersAfterTransform := by
  refine fun s => ⟨fun hm hle => ⟨⟨_, exec_encw_fits hle, encBlock_internal s hm⟩,
    ⟨_, exec_decw_fits hle, decBlock_internal s hm⟩⟩, ?_⟩
  rintro (hshort | hlong)
  · exact ⟨⟨_, exec_encw_short hshort, rfl, rfl, rfl⟩, ⟨_, exec_decw_short hshort, rfl, rfl, rfl⟩⟩
  · exact ⟨⟨_, exec_encw_tooLong hlong, rfl, rfl, rfl⟩, ⟨_, exec_decw_tooLong hlong, rfl, rfl, rfl⟩⟩

/-! ## Inverse and noninterference -/

/-- The decryption of a state's encryption, in the machine: every word is restored (R102). -/
theorem decBlock_encBlock_readW (s : State) : (decBlock (encBlock s)).readW = s.readW := by
  rw [decBlock_readW, encBlock_readW, encBlock_key, encBlock_wordCount, decryptBlock_encryptBlock]

/-- The encryption of a state's decryption, in the machine: every word is restored (R102). -/
theorem encBlock_decBlock_readW (s : State) : (encBlock (decBlock s)).readW = s.readW := by
  rw [encBlock_readW, decBlock_readW, decBlock_key, decBlock_wordCount, encryptBlock_decryptBlock]

/-- Settles O22: the loops undo each other, in the machine and, since they look at their block alone, on blocks of
`m` words. -/
theorem transformsAreInverse : Obligations.TransformsAreInverse := by
  refine ⟨fun s _ hle => ⟨⟨_, _, exec_encw_fits hle, exec_decw_fits (encBlock_fits hle), rfl, rfl, fun i => ?_⟩,
    ⟨_, _, exec_decw_fits hle, exec_encw_fits (decBlock_fits hle), rfl, rfl, fun i => ?_⟩⟩, fun k m hm => ?_⟩
  · rw [decBlock_setStatus]
    exact congrFun (decBlock_encBlock_readW s) i
  · rw [encBlock_setStatus]
    exact congrFun (encBlock_decBlock_readW s) i
  · have hde := onBlock_decrypt_encrypt k hm
    have hed := onBlock_encrypt_decrypt k hm
    exact ⟨⟨hde.injective, hed.surjective⟩, ⟨hed.injective, hde.surjective⟩⟩

section
variable {s s' : State}

/-- Two encryptions of the same block with the same key and length agree on the block (R106). -/
theorem encBlock_readW_congr (hw : s.wlen = s'.wlen) (hk : s.key = s'.key)
    (h : ∀ i, i < s.wlen.toNat → s.readW i = s'.readW i) {i : Nat} (hi : i < s.wlen.toNat) :
    (encBlock s).readW i = (encBlock s').readW i := by
  rw [encBlock_readW, encBlock_readW, State.wordCount, State.wordCount, ← hw, ← hk]
  exact encryptBlock_congr h i hi

/-- Two decryptions of the same block with the same key and length agree on the block (R106). -/
theorem decBlock_readW_congr (hw : s.wlen = s'.wlen) (hk : s.key = s'.key)
    (h : ∀ i, i < s.wlen.toNat → s.readW i = s'.readW i) {i : Nat} (hi : i < s.wlen.toNat) :
    (decBlock s).readW i = (decBlock s').readW i := by
  rw [decBlock_readW, decBlock_readW, State.wordCount, State.wordCount, ← hw, ← hk]
  exact decryptBlock_congr h i hi

end

/-- Settles O23: the rule's loops look at the key, the length and the block alone. -/
theorem transformDependsOnlyOnItsOperands : Obligations.TransformDependsOnlyOnItsOperands := by
  intro s s' hw hk h hle hle'
  have hfit' : s'.wlen.toNat ≤ s'.wcap := hw ▸ hle'
  exact ⟨⟨_, _, exec_encw_fits hle, exec_encw_fits hfit', rfl, fun _ => encBlock_readW_congr hw hk h⟩,
    ⟨_, _, exec_decw_fits hle, exec_decw_fits hfit', rfl, fun _ => decBlock_readW_congr hw hk h⟩⟩

end Sys2Proof.Machine
end

section
/-! The codec (41_codec R120 to R133): what the four commands answer, the lengths `UNPACKL` accepts, and how packing
and unpacking undo each other. -/

namespace Sys2Proof.Machine

open Sys2Proof.Rules

/-! ## What the commands answer -/

/-- A count from 1 to the limit passes its check of R162. -/
theorem accepted_of_count {n limit : Nat} (hpos : 1 ≤ n) (hle : n ≤ limit) : decide (n = 0 ∨ limit < n) = false :=
  decide_eq_false (by omega)

section
variable {s : State}

theorem exec_pack_refused (h : s.blen.toNat = 0 ∨ s.bcap < s.blen.toNat) : exec .pack s = .next (s.setStatus 5) :=
  exec_of_argError (decide_eq_true h)

theorem exec_packl_refused (h : s.blen.toNat = 0 ∨ s.bcap - 4 < s.blen.toNat) :
    exec .packl s = .next (s.setStatus 5) := exec_of_argError (decide_eq_true h)

theorem exec_unpack_refused (h : s.wlen.toNat = 0 ∨ s.wcap < s.wlen.toNat) : exec .unpack s = .next (s.setStatus 5) :=
  exec_of_argError (decide_eq_true h)

theorem exec_unpackl_refused (h : s.wlen.toNat = 0 ∨ s.wcap < s.wlen.toNat) :
    exec .unpackl s = .next (s.setStatus 5) := exec_of_argError (decide_eq_true h)

theorem exec_pack_accepted (hpos : 1 ≤ s.blen.toNat) (hle : s.blen.toNat ≤ s.bcap) :
    exec .pack s = .next ((packWork s).setStatus 1) := exec_of_accepted (accepted_of_count hpos hle)

theorem exec_packl_accepted (hpos : 1 ≤ s.blen.toNat) (hle : s.blen.toNat ≤ s.bcap - 4) :
    exec .packl s = .next ((packlWork s).setStatus 1) := exec_of_accepted (accepted_of_count hpos hle)

theorem exec_unpack_accepted (hpos : 1 ≤ s.wlen.toNat) (hle : s.wlen.toNat ≤ s.wcap) :
    exec .unpack s = .next ((unpackWork s).setStatus 1) := exec_of_accepted (accepted_of_count hpos hle)

theorem exec_unpackl_fits (hpos : 1 ≤ s.wlen.toNat) (hle : s.wlen.toNat ≤ s.wcap) :
    exec .unpackl s = .next (unpacklRun s) := exec_of_accepted (accepted_of_count hpos hle)

/-- `UNPACKL` unpacks a length that passes the range test (R127). -/
theorem exec_unpackl_accepted (hpos : 1 ≤ s.wlen.toNat) (hle : s.wlen.toNat ≤ s.wcap)
    (hl : lengthAccepted s.wlen.toNat (lastWord s)) :
    exec .unpackl s = .next ((unpackBytes (lastWord s) s).setStatus 1) := by
  rw [exec_unpackl_fits hpos hle, unpacklRun, if_pos ((lengthOk_iff hpos).2 hl)]
  rfl

/-- `UNPACKL` reports a length that fails the range test (R127, R163). -/
theorem exec_unpackl_badLength (hpos : 1 ≤ s.wlen.toNat) (hle : s.wlen.toNat ≤ s.wcap)
    (hl : ¬ lengthAccepted s.wlen.toNat (lastWord s)) : exec .unpackl s = .next ((s.setBlen 0).setStatus 7) := by
  rw [exec_unpackl_fits hpos hle, unpacklRun, if_neg (hl ∘ (lengthOk_iff hpos).1)]
  rfl

/-- An accepted length fits the byte buffer (R66, R127). -/
theorem lastWord_le (hpos : 1 ≤ s.wlen.toNat) (hle : s.wlen.toNat ≤ s.wcap)
    (hl : lengthAccepted s.wlen.toNat (lastWord s)) : lastWord s ≤ s.bcap :=
  embeddedLength_le hle ((lengthOk_iff hpos).2 hl)

/-- `BLEN` after `UNPACK`, as an integer (R126). -/
theorem unpackWork_byteCount (hle : s.wordCount ≤ s.wcap) : (unpackWork s).byteCount = 4 * s.wordCount :=
  unpackBytes_byteCount (Nat.mul_le_mul_left 4 hle)

theorem unpackBytes_readB_below {n i : Nat} (hi : i < n) : (unpackBytes n s).readB i = Rules.unpackedByte s.readW i :=
  (unpackBytes_readB n s i).trans (if_pos hi)

theorem unpackBytes_readB_beyond {n i : Nat} (hi : n ≤ i) : (unpackBytes n s).readB i = s.readB i :=
  (unpackBytes_readB n s i).trans (if_neg (Nat.not_lt.2 hi))

theorem packWork_readW_below {j : Nat} (hj : j < wordsFor s.byteCount) :
    (packWork s).readW j = packedWord s.readB s.byteCount j :=
  (packWork_readW s j).trans (if_pos hj)

theorem packlWork_readW_below {j : Nat} (hj : j < wordsFor s.byteCount) :
    (packlWork s).readW j = packedWord s.readB s.byteCount j := by
  rw [packlWork_readW, if_neg (Nat.ne_of_lt hj), if_pos hj]

/-- The length word follows the packed words (R123). -/
theorem packlWork_readW_last : (packlWork s).readW (wordsFor s.byteCount) = s.blen := by
  rw [packlWork_readW, if_pos rfl]

end

/-- Settles O24: the pack loop computes the packed words, and `PACK`'s work writes WB and `WLEN` alone. -/
theorem packPacksLittleEndian : Obligations.PackPacksLittleEndian := fun s =>
  ⟨exec_pack_refused, fun hpos hle => ⟨_, exec_pack_accepted hpos hle, congrArg (State.setStatus · 1) (packWork_eq s),
    packWork_wordCount hle, fun _ hj => packWork_readW_below hj, fun _ hj => packWork_readW_beyond hj⟩⟩

/-- Settles O25: as for `PACK`, with the length word written after the packed words. -/
theorem packlAppendsTheLengthWord : Obligations.PacklAppendsTheLengthWord := by
  refine fun s => ⟨exec_packl_refused, fun hpos hle => ?_⟩
  have hwlen : (packlWork s).wlen.toNat = wordsFor s.byteCount + 1 := packlWork_wordCount hle
  refine ⟨_, exec_packl_accepted hpos hle, congrArg (State.setStatus · 1) (packlWork_eq s), hwlen, ?_,
    fun _ hj => packlWork_readW_below hj, ?_, fun _ hj => packlWork_readW_beyond (hwlen.symm.trans_le hj)⟩
  · exact (Nat.succ_le_succ (wordsFor_pos hpos)).trans hwlen.ge
  · rw [State.setStatus_wlen, State.setStatus_readW, hwlen]
    exact packlWork_readW_last

/-- Settles O26: the unpack loop computes the unpacked bytes, and `UNPACK`'s work writes BB and `BLEN` alone. -/
theorem unpackUnpacksLittleEndian : Obligations.UnpackUnpacksLittleEndian := fun s =>
  ⟨exec_unpack_refused, fun hpos hle => ⟨_, exec_unpack_accepted hpos hle,
    congrArg (State.setStatus · 1) (unpackBytes_eq _ s), unpackWork_byteCount hle,
    fun _ hi => unpackBytes_readB_below hi, fun _ hi => unpackBytes_readB_beyond hi⟩⟩

/-- Settles O27: the three answers of `UNPACKL`; the loop is that of `UNPACK`, run for the embedded length. -/
theorem unpacklChecksThenUnpacks : Obligations.UnpacklChecksThenUnpacks := fun s =>
  ⟨exec_unpackl_refused, exec_unpackl_badLength, fun hpos hle hl => ⟨_, exec_unpackl_accepted hpos hle hl,
    congrArg (State.setStatus · 1) (unpackBytes_eq _ s), unpackBytes_byteCount (lastWord_le hpos hle hl),
    fun _ hi => unpackBytes_readB_below hi, fun _ hi => unpackBytes_readB_beyond hi⟩⟩

/-! ## The range test -/

/-- The range test on integers accepts the lengths that pack into `wc - 1` words, and 0 in a one-word block (R128). -/
theorem lengthAccepted_iff_packable {wc l : Nat} (hwc : 1 ≤ wc) :
    lengthAccepted wc l ↔ (∃ len, 1 ≤ len ∧ (len + 3) / 4 + 1 = wc ∧ l = len) ∨ (wc = 1 ∧ l = 0) := by
  constructor
  · rintro ⟨hlo, hhi⟩
    rcases Nat.eq_zero_or_pos l with rfl | hpos
    · exact .inr ⟨by omega, rfl⟩
    · exact .inl ⟨l, hpos, by omega, rfl⟩
  · rintro (⟨len, hpos, rfl, rfl⟩ | ⟨rfl, rfl⟩)
    · constructor <;> omega
    · decide

/-- The length `PACKL` embeds in its block passes the range test (R128). -/
theorem lengthAccepted_packed {len : Nat} (hpos : 1 ≤ len) : lengthAccepted (wordsFor len + 1) len :=
  (lengthAccepted_iff_packable (Nat.le_add_left 1 _)).2 (.inl ⟨len, hpos, rfl, rfl⟩)

/-- `UNPACKL` of a block that fits succeeds exactly when the range test passes (R127). -/
theorem exec_unpackl_status_eq_one_iff {s : State} (hpos : 1 ≤ s.wlen.toNat) (hle : s.wlen.toNat ≤ s.wcap) :
    ∃ t, exec .unpackl s = .next t ∧ (t.status = 1 ↔ lengthAccepted s.wlen.toNat (lastWord s)) := by
  by_cases hl : lengthAccepted s.wlen.toNat (lastWord s)
  · exact ⟨_, exec_unpackl_accepted hpos hle hl, iff_of_true rfl hl⟩
  · exact ⟨_, exec_unpackl_badLength hpos hle hl, iff_of_false (by decide : (7 : Word) ≠ 1) hl⟩

/-- Settles O28: success is the range test, and the range test is packability; its lower bound leaves 3 pad bytes. -/
theorem rangeTestAcceptsExactlyPackableLengths : Obligations.RangeTestAcceptsExactlyPackableLengths := by
  intro s hpos hle
  obtain ⟨t, ht, hok⟩ := exec_unpackl_status_eq_one_iff hpos hle
  refine ⟨t, ht, hok.trans (lengthAccepted_iff_packable hpos), fun h => ?_⟩
  obtain ⟨hlo, hhi⟩ := hok.1 h
  omega

/-! ## Round trips -/

/-- The words of a sequence have room for its bytes (R120). -/
theorem le_four_mul_wordsFor (len : Nat) : len ≤ 4 * wordsFor len := by rw [wordsFor]; omega

/-- Unpacking a block of packed words gives the packed bytes, then zero bytes (R121, R125, R129). -/
theorem unpackBytes_readB_of_packed {v : State} {b : Nat → Byte} {len n i : Nat}
    (hwords : ∀ j, j < wordsFor len → v.readW j = packedWord b len j) (hn : n ≤ 4 * wordsFor len) (hi : i < n) :
    (unpackBytes n v).readB i = if i < len then b i else 0 := by
  rw [unpackBytes_readB_below hi, unpackedByte_congr (hwords (i / 4) (by omega)), unpackedByte_packedWord]

/-- `UNPACKL` of a block that holds packed words and their length word answers the bytes (R129). -/
theorem exec_unpackl_of_packed {v : State} {b : Nat → Byte} {len : Nat} (hpos : 1 ≤ len)
    (hwlen : v.wlen.toNat = wordsFor len + 1) (hfit : v.wlen.toNat ≤ v.wcap)
    (hwords : ∀ j, j < wordsFor len → v.readW j = packedWord b len j) (hlast : (v.readW (wordsFor len)).toNat = len) :
    ∃ u, exec .unpackl v = .next u ∧ u.status = 1 ∧ u.blen = BitVec.ofNat 32 len ∧
      ∀ i, i < len → u.readB i = b i := by
  have hl : lastWord v = len := by rw [lastWord, hwlen]; exact hlast
  have hacc : lengthAccepted v.wlen.toNat (lastWord v) := by rw [hl, hwlen]; exact lengthAccepted_packed hpos
  refine ⟨_, exec_unpackl_accepted (by omega) hfit hacc, rfl, congrArg (BitVec.ofNat 32) hl, fun i hi => ?_⟩
  rw [State.setStatus_readB, hl, unpackBytes_readB_of_packed hwords (le_four_mul_wordsFor len) hi, if_pos hi]

/-- `UNPACK` of a block of packed words answers the bytes, then zero bytes up to the end of the last word (R129). -/
theorem exec_unpack_of_packed {v : State} {b : Nat → Byte} {len : Nat} (hpos : 1 ≤ len)
    (hwlen : v.wlen.toNat = wordsFor len) (hfit : v.wlen.toNat ≤ v.wcap)
    (hwords : ∀ j, j < wordsFor len → v.readW j = packedWord b len j) :
    ∃ u, exec .unpack v = .next u ∧ u.status = 1 ∧ u.blen.toNat = 4 * wordsFor len ∧
      ∀ i, i < u.blen.toNat → u.readB i = if i < len then b i else 0 := by
  have hblen : (unpackWork v).blen.toNat = 4 * wordsFor len := (unpackWork_byteCount hfit).trans (congrArg (4 * ·) hwlen)
  refine ⟨_, exec_unpack_accepted ((wordsFor_pos hpos).trans hwlen.ge) hfit, rfl, hblen, fun i hi => ?_⟩
  have hstored : i < 4 * v.wordCount := hi.trans_eq (unpackWork_byteCount hfit)
  exact unpackBytes_readB_of_packed hwords (Nat.mul_le_mul_left 4 hwlen.le) hstored

/-- `PACK` of the unpacked bytes of a block of `m` words answers the words (R129). -/
theorem exec_pack_of_unpacked {v : State} {w : Block} {m : Nat} (hpos : 1 ≤ m) (hblen : v.blen.toNat = 4 * m)
    (hfit : v.blen.toNat ≤ v.bcap) (hbytes : ∀ i, i < 4 * m → v.readB i = Rules.unpackedByte w i) :
    ∃ u, exec .pack v = .next u ∧ u.status = 1 ∧ u.wlen.toNat = m ∧ ∀ j, j < m → u.readW j = w j := by
  have hcount : v.byteCount = 4 * m := hblen
  have hwords : wordsFor v.byteCount = m := by rw [hcount, wordsFor]; omega
  refine ⟨_, exec_pack_accepted (by omega) hfit, rfl, (packWork_wordCount hfit).trans hwords, fun j hj => ?_⟩
  rw [State.setStatus_readW, packWork_readW_below (hwords.symm ▸ hj), hcount, packedWord_congr hbytes,
    packedWord_unpackedByte w hj]

/-- Settles O29: the second command of each pair reads only the buffer and the length register the first one wrote, and
its formula undoes the first one's. -/
theorem codecRoundTrips : Obligations.CodecRoundTrips := by
  refine ⟨fun s bb' blen' hpos hle => ?_, fun s bb' blen' hpos hle => ?_, fun s wb' wlen' hpos hle => ?_⟩
  · obtain ⟨u, hu, hstatus, hblen, hbytes⟩ :=
      exec_unpackl_of_packed (v := { (packlWork s).setStatus 1 with bb := bb', blen := blen' }) hpos
        (packlWork_wordCount hle) (packlWork_fits hle) (fun _ hj => packlWork_readW_below hj)
        (congrArg BitVec.toNat packlWork_readW_last)
    exact ⟨_, u, exec_packl_accepted hpos hle, hu, hstatus, hblen.trans (BitVec.ofNat_toNat ..), hbytes⟩
  · obtain ⟨u, hu, hstatus, hblen, hbytes⟩ :=
      exec_unpack_of_packed (v := { (packWork s).setStatus 1 with bb := bb', blen := blen' }) hpos
        (packWork_wordCount hle) (packWork_fits hle) (fun _ hj => packWork_readW_below hj)
    refine ⟨_, u, exec_pack_accepted hpos hle, hu, hstatus, hblen, fun i hi => ?_, fun i hlo hhi => ?_⟩
    · exact (hbytes i (hi.trans_le ((le_four_mul_wordsFor _).trans hblen.ge))).trans (if_pos hi)
    · exact (hbytes i hhi).trans (if_neg (Nat.not_lt.2 hlo))
  · have hbcap : (unpackWork s).bcap = s.bcap := congrArg Params.bcap (unpackWork_ownFields s).params
    have hblen : (unpackWork s).blen.toNat = 4 * s.wlen.toNat := unpackWork_byteCount hle
    have hfit : (unpackWork s).blen.toNat ≤ (unpackWork s).bcap := by
      rw [hblen, hbcap]; exact Nat.mul_le_mul_left 4 hle
    obtain ⟨u, hu, hstatus, hwlen, hwords⟩ :=
      exec_pack_of_unpacked (v := { (unpackWork s).setStatus 1 with wb := wb', wlen := wlen' }) hpos hblen hfit
        (fun _ hi => unpackBytes_readB_below hi)
    exact ⟨_, u, exec_unpack_accepted hpos hle, hu, hstatus, BitVec.eq_of_toNat_eq hwlen, hwords⟩

/-! ## Pad bytes and the ciphertext's length -/

/-- Settles O30: both runs unpack the accepted length, and a byte below it is read from its own lane. -/
theorem padBytesAreNotLookedAt : Obligations.PadBytesAreNotLookedAt := by
  intro s s' hw hpos hle hle' hlast hl hbytes
  have hl' : lengthAccepted s'.wlen.toNat (lastWord s') := hw ▸ hlast ▸ hl
  refine ⟨_, _, exec_unpackl_accepted hpos hle hl, exec_unpackl_accepted (hw ▸ hpos) (hw ▸ hle') hl', rfl, rfl,
    congrArg (BitVec.ofNat 32) hlast, fun i hi => ?_⟩
  replace hi : i < lastWord s := hi.trans_eq (unpackBytes_byteCount (lastWord_le hpos hle hl))
  calc (unpackBytes (lastWord s) s).readB i
    _ = Rules.unpackedByte s.readW i := unpackBytes_readB_below hi
    _ = Rules.unpackedByte s'.readW i := hbytes i hi
    _ = (unpackBytes (lastWord s') s').readB i := (unpackBytes_readB_below (hlast ▸ hi)).symm

/-- Settles O31: the transform keeps the word count of `PACKL`, and `UNPACK` gives four bytes for each word. -/
theorem ciphertextLengthIsFixedByDataLength : Obligations.CiphertextLengthIsFixedByDataLength := by
  intro s hpos hle
  have hfit : (encBlock ((packlWork s).setStatus 1)).wordCount ≤ (encBlock ((packlWork s).setStatus 1)).wcap :=
    encBlock_fits (packlWork_fits hle)
  have hwc : (encBlock ((packlWork s).setStatus 1)).wordCount = wordsFor s.byteCount + 1 :=
    (encBlock_wordCount _).trans (packlWork_wordCount hle)
  have hblen : (unpackWork ((encBlock ((packlWork s).setStatus 1)).setStatus 1)).blen.toNat =
      4 * ((s.blen.toNat + 3) / 4 + 1) := (unpackWork_byteCount hfit).trans (congrArg (4 * ·) hwc)
  refine ⟨_, _, _, exec_packl_accepted hpos hle, exec_encw_fits (packlWork_fits hle),
    exec_unpack_accepted (hwc.ge.trans' (Nat.le_add_left 1 _)) hfit, hblen, ?_⟩
  rw [State.setStatus_blen, hblen]
  omega

end Sys2Proof.Machine
end

section
/-! The key load (42_key_load R140 to R142): what `LDKEY` answers, and that zero-padding a short key or cutting a long
one after 16 bytes leaves the key words as they are. -/

namespace Sys2Proof.Rules

open Sys2Proof.Machine

/-- A packed word depends on the zero-extended byte sequence alone (R121). -/
theorem packedWord_eq_of_laneByte {b b' : Nat → Byte} {len len' : Nat} (h : ∀ i, laneByte b len i = laneByte b' len' i)
    (j : Nat) : packedWord b len j = packedWord b' len' j := by
  rw [packedWord_lanes, packedWord_lanes, h, h, h, h]

/-- Zero bytes appended to a sequence are the bytes its zero-extension already has. -/
theorem laneByte_zeroPadded {b b' : Nat → Byte} {len len' : Nat} (hle : len ≤ len') (hb : ∀ i, i < len → b' i = b i)
    (hz : ∀ i, len ≤ i → i < len' → b' i = 0) (i : Nat) : laneByte b len i = laneByte b' len' i := by
  rcases Nat.lt_or_ge i len with hlt | hge
  · rw [laneByte_of_lt hlt, laneByte_of_lt (hlt.trans_le hle), hb i hlt]
  · rw [laneByte_of_le hge]
    rcases Nat.lt_or_ge i len' with hlt' | hge'
    · rw [laneByte_of_lt hlt', hz i hge hlt']; rfl
    · rw [laneByte_of_le hge']

/-- A key of at most 16 bytes and its zero-padding to 16 have the same words (R142). -/
theorem keyWord_zeroPadded {b b' : Nat → Byte} {kc : Nat} (hkc : kc ≤ 16) (hb : ∀ i, i < kc → b' i = b i)
    (hz : ∀ i, kc ≤ i → i < 16 → b' i = 0) : keyWord b kc = keyWord b' 16 := by
  funext j
  rw [keyWord, keyWord, Nat.min_eq_left hkc, Nat.min_self]
  exact packedWord_eq_of_laneByte (laneByte_zeroPadded hkc hb hz) j

/-- A key of at least 16 bytes has the words of its first 16 (R142). -/
theorem keyWord_truncated {b b' : Nat → Byte} {kc : Nat} (hkc : 16 ≤ kc) (hb : ∀ i, i < 16 → b' i = b i) :
    keyWord b kc = keyWord b' 16 := by
  funext j
  rw [keyWord, keyWord, Nat.min_eq_right hkc, Nat.min_self]
  exact packedWord_congr (fun i hi => (hb i hi).symm) j

end Sys2Proof.Rules

namespace Sys2Proof.Machine

open Sys2Proof.Rules

theorem exec_ldkey_refused {s : State} (h : s.blen.toNat = 0 ∨ s.bcap < s.blen.toNat) :
    exec .ldkey s = .next (s.setStatus 5) := exec_of_argError (decide_eq_true h)

theorem exec_ldkey_accepted {s : State} (hpos : 1 ≤ s.blen.toNat) (hle : s.blen.toNat ≤ s.bcap) :
    exec .ldkey s = .next ((loadKey s).setStatus 1) := exec_of_accepted (accepted_of_count hpos hle)

/-- Settles O32: the accepted command's work is `loadKey`, which writes the packed key words and no other field. -/
theorem ldkeyLoadsTheNormalisedKey : Obligations.LdkeyLoadsTheNormalisedKey := by
  refine fun s => ⟨exec_ldkey_refused, fun hpos hle => ?_⟩
  rw [exec_ldkey_accepted hpos hle, loadKey_eq]
  rfl

/-- Keys with the same words load the same registers (R141). -/
theorem loadKey_key_congr {s s' : State} (h : keyWord s.readB s.byteCount = keyWord s'.readB s'.byteCount) :
    (loadKey s).key = (loadKey s').key := by
  rw [loadKey_eq, loadKey_eq, h]
  rfl

/-- An accepted key and a 16-byte key with the same words both load, and load alike (R141, R142). -/
theorem exec_ldkey_alike {s s' : State} (hpos : 1 ≤ s.blen.toNat) (hle : s.blen.toNat ≤ s.bcap) (hlen' : s'.blen = 16)
    (hcap' : 16 ≤ s'.bcap) (hk : keyWord s.readB s.byteCount = keyWord s'.readB 16) :
    ∃ t t', exec .ldkey s = .next t ∧ exec .ldkey s' = .next t' ∧ t.status = 1 ∧ t'.status = 1 ∧ t.key = t'.key := by
  have hcount : s'.byteCount = 16 := congrArg BitVec.toNat hlen'
  have hpos' : 1 ≤ s'.byteCount := by omega
  exact ⟨_, _, exec_ldkey_accepted hpos hle, exec_ldkey_accepted hpos' (hcount.trans_le hcap'), rfl, rfl,
    loadKey_key_congr (hk.trans (by rw [hcount]))⟩

/-- Settles O33: padding and truncation both leave the four key words as they are. -/
theorem paddedAndTruncatedKeysLoadAlike : Obligations.PaddedAndTruncatedKeysLoadAlike :=
  ⟨fun _ _ hpos hlt hle hlen' hcap' hbytes hzero =>
    exec_ldkey_alike hpos hle hlen' hcap' (keyWord_zeroPadded hlt.le hbytes hzero),
  fun _ _ hlong hle hlen' hcap' hbytes =>
    exec_ldkey_alike (by omega) hle hlen' hcap' (keyWord_truncated hlong.le hbytes)⟩

end Sys2Proof.Machine
end

section
/-! The composed operations (43_composite R150 to R157): `ENC` and `DEC` end as their last stage ends when it is run on
the state the two stages before leave; what that state holds; and that decryption undoes encryption. -/

namespace Sys2Proof.Rules

open Sys2Proof.Machine

/-- The block `PACKL` makes depends on the bytes of the sequence alone (R123). -/
theorem packedWithLength_congr {b b' : Nat → Byte} {len : Nat} (h : ∀ i, i < len → b i = b' i) :
    packedWithLength b len = packedWithLength b' len := by
  funext j
  rw [packedWithLength, packedWithLength, packedWord_congr h j]

theorem packedWithLength_below {b : Nat → Byte} {len j : Nat} (hj : j < wordsFor len) :
    packedWithLength b len j = packedWord b len j := if_neg (Nat.ne_of_lt hj)

/-- The length word follows the packed words (R123). -/
theorem packedWithLength_last (b : Nat → Byte) (v : Word) :
    packedWithLength b v.toNat (wordsFor v.toNat) = v :=
  (if_pos rfl).trans ((BitVec.ofNat_toNat 32 v).trans (BitVec.setWidth_eq v))

/-- Decrypting the unpacked ciphertext of `s` with the same key gives the block `ENC` packed (R129, R153). -/
theorem decWords_of_ciphertext {s t : State} (hkey : t.key = s.key)
    (hlen : t.blen.toNat = 4 * (wordsFor s.blen.toNat + 1))
    (hbytes : ∀ i, i < 4 * (wordsFor s.blen.toNat + 1) → t.readB i = unpackedByte (encWords s) i)
    {j : Nat} (hj : j < wordsFor s.blen.toNat + 1) : decWords t j = packedWithLength s.readB s.blen.toNat j := by
  have hwc : (t.blen.toNat + 3) / 4 = wordsFor s.blen.toNat + 1 := by omega
  rw [decWords, hwc, hkey, hlen]
  calc decryptBlock s.key (wordsFor s.blen.toNat + 1) (packedWord t.readB (4 * (wordsFor s.blen.toNat + 1))) j
    _ = decryptBlock s.key (wordsFor s.blen.toNat + 1) (encWords s) j :=
      decryptBlock_congr (fun i hi => (packedWord_congr hbytes i).trans (packedWord_unpackedByte _ hi)) j hj
    _ = packedWithLength s.readB s.blen.toNat j := congrFun (decryptBlock_encryptBlock ..) j

end Sys2Proof.Rules

namespace Sys2Proof.Machine

open Sys2Proof.Rules

/-! ## What the commands answer -/

section
variable {s : State}

theorem exec_enc_refused (h : s.blen.toNat = 0 ∨ s.bcap - 4 < s.blen.toNat) : exec .enc s = .next (s.setStatus 5) :=
  exec_of_argError (decide_eq_true h)

theorem exec_dec_refused (h : s.blen.toNat = 0 ∨ s.bcap < s.blen.toNat) : exec .dec s = .next (s.setStatus 5) :=
  exec_of_argError (decide_eq_true h)

/-- `WLEN` when `ENC`'s third stage begins, as an integer (R151). -/
theorem encBlock_packlWork_wordCount (hle : s.byteCount ≤ s.bcap - 4) :
    (encBlock (packlWork s)).wordCount = wordsFor s.byteCount + 1 :=
  (encBlock_wordCount _).trans (packlWork_wordCount hle)

/-- `WLEN` when `DEC`'s third stage begins, as an integer (R152). -/
theorem decBlock_packWork_wordCount (hle : s.byteCount ≤ s.bcap) :
    (decBlock (packWork s)).wordCount = wordsFor s.byteCount :=
  (decBlock_wordCount _).trans (packWork_wordCount hle)

theorem exec_enc_accepted (hpos : 1 ≤ s.blen.toNat) (hle : s.blen.toNat ≤ s.bcap - 4) :
    exec .enc s = .next ((unpackWork (encBlock (packlWork s))).setStatus 1) :=
  exec_of_accepted (accepted_of_count hpos hle)

theorem exec_dec_accepted (hpos : 1 ≤ s.blen.toNat) (hle : s.blen.toNat ≤ s.bcap) :
    exec .dec s = .next (unpacklRun (decBlock (packWork s))) :=
  exec_of_accepted (accepted_of_count hpos hle)

/-- Once its own check passes, `ENC` answers what `UNPACK` answers on the state its first two stages leave (R150). -/
theorem exec_enc_eq_exec_unpack (hpos : 1 ≤ s.blen.toNat) (hle : s.blen.toNat ≤ s.bcap - 4) :
    exec .enc s = exec .unpack (encBlock (packlWork s)) := by
  have hwc : 1 ≤ (encBlock (packlWork s)).wordCount :=
    (Nat.le_add_left 1 _).trans (encBlock_packlWork_wordCount hle).ge
  rw [exec_enc_accepted hpos hle, exec_unpack_accepted hwc (encBlock_fits (packlWork_fits hle))]

/-- Once its own check passes, `DEC` answers what `UNPACKL` answers on the state its first two stages leave, error or
not (R150). -/
theorem exec_dec_eq_exec_unpackl (hpos : 1 ≤ s.blen.toNat) (hle : s.blen.toNat ≤ s.bcap) :
    exec .dec s = exec .unpackl (decBlock (packWork s)) := by
  have hwc : 1 ≤ (decBlock (packWork s)).wordCount :=
    (wordsFor_pos hpos).trans (decBlock_packWork_wordCount hle).ge
  rw [exec_dec_accepted hpos hle, exec_unpackl_fits hwc (decBlock_fits (packWork_fits hle))]

end

/-- `UNPACK` does not look at the `STATUS` the command before left (R150). -/
theorem exec_unpack_setStatus (v : Word) (s : State) : exec .unpack (s.setStatus v) = exec .unpack s := by
  rw [exec_eq, exec_eq, work, unpackWork_setStatus]
  rfl

/-- `UNPACKL` does not look at the `STATUS` the command before left (R150). -/
theorem exec_unpackl_setStatus (v : Word) (s : State) : exec .unpackl (s.setStatus v) = exec .unpackl s := by
  rw [exec_eq, exec_eq, work, unpacklRun_setStatus]
  rfl

/-- Settles O35: no stage looks at `STATUS`, so what the single commands write there in between reaches nothing. -/
theorem composedCommandsAreTheirThreeStages : Obligations.ComposedCommandsAreTheirThreeStages := by
  refine ⟨fun s hpos hle => ?_, fun s hpos hle => ?_⟩
  · refine ⟨_, _, _, exec_packl_accepted hpos hle, exec_encw_fits (packlWork_fits hle), ?_, rfl, rfl, rfl,
      exec_enc_accepted hpos hle⟩
    rw [encBlock_setStatus, setStatus_setStatus, exec_unpack_setStatus, ← exec_enc_eq_exec_unpack hpos hle,
      exec_enc_accepted hpos hle]
  · refine ⟨_, _, _, exec_pack_accepted hpos hle, exec_decw_fits (packWork_fits hle), ?_, rfl, rfl,
      exec_dec_accepted hpos hle⟩
    rw [decBlock_setStatus, setStatus_setStatus, exec_unpackl_setStatus, ← exec_dec_eq_exec_unpackl hpos hle,
      exec_dec_accepted hpos hle]

/-! ## What the end states hold -/

/-- What a command other than `LDKEY` may write, as one record update (R34). -/
theorem eq_update_of_exec {i : Instr} {s t : State} (hi : i ≠ .ldkey) (h : exec i s = .next t) :
    t = { s with status := t.status, blen := t.blen, wlen := t.wlen, bb := t.bb, wb := t.wb, sum := t.sum,
                 rnd := t.rnd, p := t.p } := by
  obtain ⟨hparams, hgen, hpending, hresponse⟩ := exec_ownFields h
  have hkey := exec_key hi h
  cases t
  cases hparams; cases hgen; cases hpending; cases hresponse; cases hkey
  rfl

section
variable {s : State}

/-- The words `PACKL` packs, its length word included (R123). -/
theorem packlWork_readW_block {j : Nat} (hj : j < wordsFor s.byteCount + 1) :
    (packlWork s).readW j = packedWithLength s.readB s.blen.toNat j := by
  rcases Nat.lt_succ_iff_lt_or_eq.1 hj with hlt | rfl
  · exact (packlWork_readW_below hlt).trans (packedWithLength_below hlt).symm
  · exact packlWork_readW_last.trans (packedWithLength_last ..).symm

/-- The block `ENC`'s third stage unpacks is the ciphertext (R151). -/
theorem encBlock_packlWork_readW (hle : s.byteCount ≤ s.bcap - 4) {j : Nat} (hj : j < wordsFor s.byteCount + 1) :
    (encBlock (packlWork s)).readW j = encWords s j := by
  rw [encBlock_readW, packlWork_key, packlWork_wordCount hle]
  exact encryptBlock_congr (fun _ => packlWork_readW_block) j hj

theorem encBlock_packlWork_readW_beyond (hle : s.byteCount ≤ s.bcap - 4) {j : Nat}
    (hj : wordsFor s.byteCount + 1 ≤ j) : (encBlock (packlWork s)).readW j = s.readW j :=
  (encBlock_readW_beyond ((packlWork_wordCount hle).trans_le hj)).trans (packlWork_readW_beyond hj)

/-- The block `DEC`'s third stage looks at is the decryption of the packed bytes (R152). -/
theorem decBlock_packWork_readW (hle : s.byteCount ≤ s.bcap) {j : Nat} (hj : j < wordsFor s.byteCount) :
    (decBlock (packWork s)).readW j = decWords s j := by
  rw [decBlock_readW, packWork_key, packWork_wordCount hle]
  exact decryptBlock_congr (fun _ => packWork_readW_below) j hj

theorem decBlock_packWork_readW_beyond (hle : s.byteCount ≤ s.bcap) {j : Nat} (hj : wordsFor s.byteCount ≤ j) :
    (decBlock (packWork s)).readW j = s.readW j :=
  (decBlock_readW_beyond ((packWork_wordCount hle).trans_le hj)).trans (packWork_readW_beyond hj)

end

/-- Settles O36: the bytes are those of the ciphertext block, which the first two stages leave in WB. -/
theorem encEncryptsTheByteBuffer : Obligations.EncEncryptsTheByteBuffer := by
  refine fun s => ⟨exec_enc_refused, fun hpos hle => ?_⟩
  have henc := exec_enc_accepted hpos hle
  have hwc := encBlock_packlWork_wordCount (s := s) hle
  have hwlen : (unpackWork (encBlock (packlWork s))).wlen.toNat = wordsFor s.byteCount + 1 :=
    (congrArg BitVec.toNat (unpackWork_wlen _)).trans hwc
  have hblen : (unpackWork (encBlock (packlWork s))).blen.toNat = 4 * (wordsFor s.byteCount + 1) :=
    (unpackWork_byteCount (encBlock_fits (packlWork_fits hle))).trans (congrArg (4 * ·) hwc)
  refine ⟨_, henc, eq_update_of_exec (by decide) henc, hwlen, hblen, fun j hj => ?_, fun j hj => ?_,
    fun i hi => ?_, fun i hi => ?_⟩
  · rw [State.setStatus_readW, unpackWork_readW]
    exact encBlock_packlWork_readW hle (hj.trans_eq hwlen)
  · rw [State.setStatus_readW, unpackWork_readW]
    exact encBlock_packlWork_readW_beyond hle (hwlen.symm.trans_le hj)
  · replace hi : i < 4 * (wordsFor s.byteCount + 1) := hi.trans_eq hblen
    calc (unpackWork (encBlock (packlWork s))).readB i
      _ = Rules.unpackedByte (encBlock (packlWork s)).readW i := unpackBytes_readB_below (hwc ▸ hi)
      _ = Rules.unpackedByte (encWords s) i := unpackedByte_congr (encBlock_packlWork_readW hle (by omega))
  · replace hi : 4 * (encBlock (packlWork s)).wordCount ≤ i := hwc ▸ hblen.symm.trans_le hi
    calc (unpackWork (encBlock (packlWork s))).readB i
      _ = (encBlock (packlWork s)).readB i := unpackWork_readB_beyond hi
      _ = s.readB i := by rw [encBlock_readB, packlWork_readB]

theorem packWork_bb (s : State) : (packWork s).bb = s.bb := by rw [packWork_eq]

/-- Settles O37: `UNPACKL` tests the last decrypted word; it leaves BB as it was, or unpacks that many bytes of the
decrypted block. -/
theorem decDecryptsTheByteBuffer : Obligations.DecDecryptsTheByteBuffer := by
  refine fun s => ⟨exec_dec_refused, fun hpos hle => ?_⟩
  have hdec := exec_dec_accepted hpos hle
  have hrun := (exec_dec_eq_exec_unpackl hpos hle).symm.trans hdec
  have hwc : (decBlock (packWork s)).wlen.toNat = wordsFor s.byteCount := decBlock_packWork_wordCount hle
  have hw : 1 ≤ (decBlock (packWork s)).wlen.toNat := (wordsFor_pos hpos).trans hwc.ge
  have hfit : (decBlock (packWork s)).wlen.toNat ≤ (decBlock (packWork s)).wcap := decBlock_fits (packWork_fits hle)
  have hlen : lastWord (decBlock (packWork s)) = decLength s := embeddedLength_decBlock_packWork hpos hle
  have hwlen : (unpacklRun (decBlock (packWork s))).wlen.toNat = wordsFor s.byteCount := by rw [unpacklRun_wlen, hwc]
  refine ⟨_, hdec, eq_update_of_exec (by decide) hdec, hwlen, fun j hj => ?_, fun j hj => ?_, fun hl => ?_,
    fun hl => ?_⟩
  · rw [unpacklRun_readW]
    exact decBlock_packWork_readW hle (hj.trans_eq hwlen)
  · rw [unpacklRun_readW]
    exact decBlock_packWork_readW_beyond hle (hwlen.symm.trans_le hj)
  · have hbad := exec_unpackl_badLength hw hfit (by rw [hwc, hlen]; exact hl)
    rw [Host.Outcome.next.inj (hrun.symm.trans hbad)]
    exact ⟨rfl, rfl, (decBlock_frame _).bb.trans (packWork_bb s)⟩
  · obtain ⟨u, hu, hframe, hblen, hbelow, hbeyond⟩ :=
      (unpacklChecksThenUnpacks _).2.2 hw hfit (by rw [hwc, hlen]; exact hl)
    rw [Host.Outcome.next.inj (hrun.symm.trans hu)]
    rw [hlen] at hblen hbelow hbeyond
    refine ⟨congrArg State.status hframe, hblen, fun i hi => ?_, fun i hi => ?_⟩
    · obtain ⟨-, hhi⟩ := hl
      have hword : i / 4 < wordsFor s.byteCount := by rw [wordsFor, State.byteCount]; omega
      exact (hbelow i hi).trans (unpackedByte_congr (decBlock_packWork_readW hle hword))
    · rw [hbeyond i hi, decBlock_readB, packWork_readB]

/-! ## Inverse and noninterference -/

/-- Settles O38: `DEC` packs the ciphertext block again, its decryption is the block `PACKL` made, and `UNPACKL` of that
block answers the bytes. -/
theorem encThenDecRestoresTheBytes : Obligations.EncThenDecRestoresTheBytes := by
  intro s hpos hle
  obtain ⟨t, ht, -, -, hlen, -, -, hbytes, -⟩ := (encEncryptsTheByteBuffer s).2 hpos hle
  replace hlen : t.blen.toNat = 4 * (wordsFor s.blen.toNat + 1) := hlen
  have hfit : t.byteCount ≤ t.bcap := by
    have hcap : t.bcap = 4 * s.wcap := congrArg Params.bcap (exec_ownFields ht).params
    exact hlen.trans_le ((Nat.mul_le_mul_left 4 (wordsFor_lt hle)).trans hcap.ge)
  have hwc : wordsFor t.byteCount = wordsFor s.blen.toNat + 1 := by rw [wordsFor, State.byteCount, hlen]; omega
  have hwords : ∀ j, j < wordsFor s.blen.toNat + 1 →
      (decBlock (packWork t)).readW j = packedWithLength s.readB s.blen.toNat j := fun j hj =>
    (decBlock_packWork_readW hfit (hj.trans_eq hwc.symm)).trans
      (decWords_of_ciphertext (exec_key (by decide) ht) hlen (fun i hi => hbytes i (hi.trans_eq hlen.symm)) hj)
  have hlast : ((decBlock (packWork t)).readW (wordsFor s.blen.toNat)).toNat = s.blen.toNat := by
    rw [hwords _ (Nat.lt_succ_self _), packedWithLength_last]
  obtain ⟨u, hu, hstatus, hblen, hdata⟩ := exec_unpackl_of_packed (b := s.readB) hpos
    ((decBlock_packWork_wordCount hfit).trans hwc) (decBlock_fits (packWork_fits hfit))
    (fun j hj => (hwords j (Nat.lt_succ_of_lt hj)).trans (packedWithLength_below hj)) hlast
  exact ⟨t, u, ht, (exec_dec_eq_exec_unpackl (by omega) hfit).trans hu, hstatus, hblen.trans (BitVec.ofNat_toNat ..),
    hdata⟩

/-- The ciphertext words depend on the length, the data and the key alone (R157). -/
theorem encWords_congr {s s' : State} (hblen : s.blen = s'.blen) (hkey : s.key = s'.key)
    (hdata : ∀ i, i < s.blen.toNat → s.readB i = s'.readB i) : encWords s = encWords s' := by
  rw [encWords, encWords, packedWithLength_congr hdata, hblen, hkey]

/-- Settles O39: the end state of `ENC` is written in the ciphertext words, which are the same in both states. -/
theorem ciphertextDependsOnlyOnDataAndKey : Obligations.CiphertextDependsOnlyOnDataAndKey := by
  intro s s' hblen hkey hdata hpos hle hle'
  obtain ⟨t, ht, hframe, -, hlen, -, -, hbytes, -⟩ := (encEncryptsTheByteBuffer s).2 hpos hle
  obtain ⟨t', ht', hframe', -, hlen', -, -, hbytes', -⟩ :=
    (encEncryptsTheByteBuffer s').2 (hblen ▸ hpos) (hblen ▸ hle')
  have hlens : t.blen.toNat = t'.blen.toNat := by rw [hlen, hlen', hblen]
  refine ⟨t, t', ht, ht', congrArg State.status hframe, congrArg State.status hframe', BitVec.eq_of_toNat_eq hlens,
    fun i hi => ?_⟩
  rw [hbytes i hi, hbytes' i (hi.trans_eq hlens), encWords_congr hblen hkey hdata]

end Sys2Proof.Machine
end

section
/-! The errors (60_exceptions R160 to R167): `ERR_ARG` by the table's conditions, the state `ERR_LENGTH` leaves, and the
order in which a command's one error is found. -/

namespace Sys2Proof.Machine

open Sys2Proof.Rules

/-- Settles O9: refused arguments write `STATUS` alone, and no command's work ends with `ERR_ARG`. -/
theorem argErrorExactlyPerTable : Obligations.ArgErrorExactlyPerTable := by
  refine fun i s => ⟨exec_of_argError, fun ha => ⟨work i s, exec_of_accepted ha, ?_⟩⟩
  rcases work_status i s with hs | ⟨-, hs⟩ <;> rw [hs] <;> decide

section
variable {s : State}

/-- `DECW` runs on the block `PACK` leaves, which always fits (R66, R152). -/
theorem exec_decw_packWork (hle : s.blen.toNat ≤ s.bcap) :
    exec .decw ((packWork s).setStatus 1) = .next ((decBlock (packWork s)).setStatus 1) := by
  have hfit : ((packWork s).setStatus 1).wlen.toNat ≤ ((packWork s).setStatus 1).wcap := packWork_fits hle
  rw [exec_decw_fits hfit, decBlock_setStatus, setStatus_setStatus]

/-- `DEC` reports a decrypted length that fails the range test (R152, R163). -/
theorem exec_dec_badLength (hpos : 1 ≤ s.blen.toNat) (hle : s.blen.toNat ≤ s.bcap)
    (hl : ¬ lengthAccepted (decBlock (packWork s)).wlen.toNat (lastWord (decBlock (packWork s)))) :
    exec .dec s = .next (((decBlock (packWork s)).setBlen 0).setStatus 7) := by
  have hwc : 1 ≤ (decBlock (packWork s)).wlen.toNat := (wordsFor_pos hpos).trans (decBlock_packWork_wordCount hle).ge
  rw [exec_dec_eq_exec_unpackl hpos hle, exec_unpackl_badLength hwc (decBlock_fits (packWork_fits hle)) hl]

end

/-- Settles O10: both commands end by raising `ERR_LENGTH` on the state whose length word was tested, and neither `PACK`
nor `DECW` writes BB or `KEY`. -/
theorem lengthErrorLeavesEmptyResult : Obligations.LengthErrorLeavesEmptyResult := by
  refine ⟨fun s ha hl => exec_unpackl_badLength (count_pos_of_accepted ha) (count_le_of_accepted ha) hl,
    fun s ha => ?_⟩
  have hpos : 1 ≤ s.blen.toNat := count_pos_of_accepted ha
  have hle : s.blen.toNat ≤ s.bcap := count_le_of_accepted ha
  refine ⟨_, _, exec_pack_accepted hpos hle, exec_decw_packWork hle, fun hl => ?_⟩
  have hbb : (decBlock (packWork s)).bb = s.bb := (decBlock_frame _).bb.trans (packWork_bb s)
  have hkey : (decBlock (packWork s)).key = s.key := (decBlock_key _).trans (packWork_key s)
  exact ⟨_, exec_dec_badLength hpos hle hl, rfl, hbb, hkey⟩

/-- `STATUS.ERR` is the code of the outcome that was written (R25, R160). -/
theorem err_of_status {t : State} {e : ErrCode} (h : t.status = statusWord e) : t.err = e.code := by
  rw [State.err, h]
  cases e <;> rfl

/-- The codes of `STATUS.ERR` a command can report, with what each says about its lengths (R160, R166). -/
theorem exec_err {i : Instr} {s t : State} (h : exec i s = .next t) :
    (argError i s = true ∧ t.err = 2) ∨
      (argError i s = false ∧ (t.err = 0 ∨ ((i = .unpackl ∨ i = .dec) ∧ t.err = 3))) := by
  rcases exec_cases h with ⟨ha, rfl⟩ | ⟨ha, rfl⟩
  · exact .inl ⟨ha, err_of_status (e := .arg) rfl⟩
  · refine .inr ⟨ha, ?_⟩
    rcases work_status i s with hs | ⟨hi, hs⟩
    · exact .inl (err_of_status (e := .ok) hs)
    · exact .inr ⟨hi, err_of_status (e := .length) hs⟩

/-- Settles O11: an illegal word never reaches a command; a command's own error is told by `exec_err`. -/
theorem errorsAreFoundInOrder : Obligations.ErrorsAreFoundInOrder := by
  have refused : ∀ (i : Instr) (s : State), argError i s = true → ∃ t, exec i s = .next t ∧ t.err = 2 :=
    fun i s ha => ⟨_, exec_of_argError ha, err_of_status (e := .arg) rfl⟩
  refine ⟨fun c s hc => ⟨_, runCommand_of_illegalWord hc s, err_of_status (e := .cmd) rfl⟩,
    fun c i s hi => runCommand_of_decode hi s, refused,
    fun s hw => refused .unpackl s (decide_eq_true (.inl (congrArg BitVec.toNat hw))),
    fun i s t h herr => ?_, fun i s t h => ?_⟩
  · rcases exec_err h with ⟨-, he⟩ | ⟨ha, he | ⟨hi, -⟩⟩
    · exact absurd (he.symm.trans herr) (by decide)
    · exact absurd (he.symm.trans herr) (by decide)
    · exact ⟨hi, ha⟩
  · rcases exec_err h with ⟨-, he⟩ | ⟨-, he | ⟨-, he⟩⟩ <;> rw [he] <;> decide

end Sys2Proof.Machine
end
